-- ==== Sys2Proof/Word.lean ====
section
/-! DEFINITION. The word types of the block (00_scope.md R8, 30_encoding.md R71): what the spec treats as bits. -/

namespace Sys2Proof

/-- A general register, an immediate `kk`, a random byte: 8 bits (00_scope.md R8). -/
abbrev Byte := BitVec 8

/-- An instruction word, `I`, `PC`, a stack slot: 16 bits (00_scope.md R8). -/
abbrev Word := BitVec 16

/-- The index of a general register, the fields `x` and `y`: 4 bits (10_state.md R21). -/
abbrev RegIdx := BitVec 4

/-- The index of a stack slot, `SP & 0xF`: 4 bits (10_state.md R29). -/
abbrev SlotIdx := BitVec 4

/-- The address field `nnn`: 12 bits (00_scope.md R8). -/
abbrev Addr := BitVec 12

end Sys2Proof
end

