-- ==== Sys2Proof/Syntax.lean ====
section
/-! DEFINITION. The fifteen instructions of the block, one constructor for each row of the opcode table
(00_scope.md R3, 30_encoding.md R78). -/

namespace Sys2Proof

/-- An instruction with its fields (30_encoding.md R71): `x` and `y` general registers, `kk` an immediate byte,
`nnn` a 12-bit address. All fields are unsigned (R72). -/
inductive Instr where
  /-- `00EE` RET (40_control_flow.md R100). -/
  | ret
  /-- `1nnn` JP addr (40_control_flow.md R105). -/
  | jp (nnn : Addr)
  /-- `2nnn` CALL addr (40_control_flow.md R110). -/
  | call (nnn : Addr)
  /-- `3xkk` SE Vx, byte (40_control_flow.md R121). -/
  | seByte (x : RegIdx) (kk : Byte)
  /-- `4xkk` SNE Vx, byte (40_control_flow.md R131). -/
  | sneByte (x : RegIdx) (kk : Byte)
  /-- `6xkk` LD Vx, byte (41_register_immediate.md R150). -/
  | ldByte (x : RegIdx) (kk : Byte)
  /-- `7xkk` ADD Vx, byte (41_register_immediate.md R155). -/
  | addByte (x : RegIdx) (kk : Byte)
  /-- `8xy0` LD Vx, Vy (42_register_register.md R170). -/
  | ldReg (x y : RegIdx)
  /-- `8xy2` AND Vx, Vy (42_register_register.md R175). -/
  | andReg (x y : RegIdx)
  /-- `8xy3` XOR Vx, Vy (42_register_register.md R180). -/
  | xorReg (x y : RegIdx)
  /-- `8xy4` ADD Vx, Vy (42_register_register.md R185). -/
  | addReg (x y : RegIdx)
  /-- `8xyE` SHL Vx {,Vy} (42_register_register.md R190): `y` is decoded and ignored (30_encoding.md R77; log 11). -/
  | shl (x y : RegIdx)
  /-- `Annn` LD I, addr (43_index_and_random.md R200). -/
  | ldI (nnn : Addr)
  /-- `Cxkk` RND Vx, byte (43_index_and_random.md R205). -/
  | rnd (x : RegIdx) (kk : Byte)
  /-- `Fx1E` ADD I, Vx (43_index_and_random.md R210). -/
  | addI (x : RegIdx)
  deriving DecidableEq, Repr

end Sys2Proof
end

