-- ==== Sys2Proof/Decode.lean ====
section
/-! DEFINITION. The decoder, total on all 65536 words (30_encoding.md R71 to R81), and the encoder written from the
same formats (30_encoding.md R73). -/

namespace Sys2Proof

/-! The fields of a word (30_encoding.md R71). -/

/-- `x = (word >> 8) & 0xF`. -/
def fieldX (w : Word) : RegIdx := w.extractLsb' 8 4

/-- `y = (word >> 4) & 0xF`. -/
def fieldY (w : Word) : RegIdx := w.extractLsb' 4 4

/-- `kk = word & 0xFF`. -/
def fieldKK (w : Word) : Byte := w.extractLsb' 0 8

/-- `nnn = word & 0xFFF`. -/
def fieldNNN (w : Word) : Addr := w.extractLsb' 0 12

/-- The fifteen instruction kinds of the decode table (30_encoding.md R78). -/
inductive Kind where
  | RET | JP | CALL | SE_BYTE | SNE_BYTE | LD_BYTE | ADD_BYTE | LD_REG | AND_REG | XOR_REG | ADD_REG | SHL | LD_I | RND
  | ADD_I
  deriving DecidableEq, Repr

/-- A row of the decode table: a word is of the row's kind when its bits under `mask` are `pattern`. -/
structure Row where
  kind : Kind
  pattern : Word
  mask : Word
  deriving DecidableEq, Repr

/-- `(w & mask) = match` (30_encoding.md R78). -/
def Row.matchesWord (r : Row) (w : Word) : Bool := w &&& r.mask == r.pattern

/-- The decode table, in the order of 30_encoding.md R78. -/
def rows : List Row := [
  ⟨.RET,      0x00EE, 0xFFFF⟩,
  ⟨.JP,       0x1000, 0xF000⟩,
  ⟨.CALL,     0x2000, 0xF000⟩,
  ⟨.SE_BYTE,  0x3000, 0xF000⟩,
  ⟨.SNE_BYTE, 0x4000, 0xF000⟩,
  ⟨.LD_BYTE,  0x6000, 0xF000⟩,
  ⟨.ADD_BYTE, 0x7000, 0xF000⟩,
  ⟨.LD_REG,   0x8000, 0xF00F⟩,
  ⟨.AND_REG,  0x8002, 0xF00F⟩,
  ⟨.XOR_REG,  0x8003, 0xF00F⟩,
  ⟨.ADD_REG,  0x8004, 0xF00F⟩,
  ⟨.SHL,      0x800E, 0xF00F⟩,
  ⟨.LD_I,     0xA000, 0xF000⟩,
  ⟨.RND,      0xC000, 0xF000⟩,
  ⟨.ADD_I,    0xF01E, 0xF0FF⟩]

/-- `Decode(w)` of 30_encoding.md R78: the kind of the first row that matches; `none` is UNSUPPORTED (R80). -/
def decodeKind (w : Word) : Option Kind := (rows.find? (·.matchesWord w)).map Row.kind

/-- The instruction of a kind with the fields of a word (30_encoding.md R71, R73). -/
def Kind.withFields (w : Word) : Kind → Instr
  | .RET => .ret
  | .JP => .jp (fieldNNN w)
  | .CALL => .call (fieldNNN w)
  | .SE_BYTE => .seByte (fieldX w) (fieldKK w)
  | .SNE_BYTE => .sneByte (fieldX w) (fieldKK w)
  | .LD_BYTE => .ldByte (fieldX w) (fieldKK w)
  | .ADD_BYTE => .addByte (fieldX w) (fieldKK w)
  | .LD_REG => .ldReg (fieldX w) (fieldY w)
  | .AND_REG => .andReg (fieldX w) (fieldY w)
  | .XOR_REG => .xorReg (fieldX w) (fieldY w)
  | .ADD_REG => .addReg (fieldX w) (fieldY w)
  | .SHL => .shl (fieldX w) (fieldY w)
  | .LD_I => .ldI (fieldNNN w)
  | .RND => .rnd (fieldX w) (fieldKK w)
  | .ADD_I => .addI (fieldX w)

/-- The instruction a word stands for; `none` is UNSUPPORTED (30_encoding.md R78, R80). -/
def decode (w : Word) : Option Instr := (decodeKind w).map (Kind.withFields w)

/-- The host's instruction word: the low `nbits` bits of a number, the bits above them zero (log 13). -/
def tableWord (nbits w : Nat) : Word := BitVec.ofNat 16 (w % 2 ^ nbits)

/-- The instruction of an opcode-table word of `nbits` bits. No instruction is longer than 16 bits (30_encoding.md
R70), so a longer word is none. -/
def decodeTableWord (nbits w : Nat) : Option Instr :=
  if nbits ≤ 16 then decode (tableWord nbits w) else none

/-! The encoder, from the formats of 30_encoding.md R73. -/

/-- Format `A`: `op`, then `nnn`. -/
def formatA (op : BitVec 4) (nnn : Addr) : Word := op ++ nnn

/-- Format `K`: `op`, `x`, then `kk`. -/
def formatK (op : BitVec 4) (x : RegIdx) (kk : Byte) : Word := (op ++ x : BitVec 8) ++ kk

/-- Format `R`: 0x8, `x`, `y`, then `n4`. -/
def formatR (x y : RegIdx) (n4 : BitVec 4) : Word := (0x8#4 ++ x : BitVec 8) ++ (y ++ n4 : BitVec 8)

/-- Format `F`: 0xF, `x`, then the function byte 0x1E. -/
def formatF (x : RegIdx) : Word := (0xF#4 ++ x : BitVec 8) ++ 0x1E#8

/-- The word of an instruction (30_encoding.md R73, R78). -/
def encode : Instr → Word
  | .ret => 0x00EE
  | .jp nnn => formatA 0x1 nnn
  | .call nnn => formatA 0x2 nnn
  | .seByte x kk => formatK 0x3 x kk
  | .sneByte x kk => formatK 0x4 x kk
  | .ldByte x kk => formatK 0x6 x kk
  | .addByte x kk => formatK 0x7 x kk
  | .ldReg x y => formatR x y 0x0
  | .andReg x y => formatR x y 0x2
  | .xorReg x y => formatR x y 0x3
  | .addReg x y => formatR x y 0x4
  | .shl x y => formatR x y 0xE
  | .ldI nnn => formatA 0xA nnn
  | .rnd x kk => formatK 0xC x kk
  | .addI x => formatF x

/-- The decode-table row of an instruction. -/
def Instr.row : Instr → Row
  | .ret => ⟨.RET, 0x00EE, 0xFFFF⟩
  | .jp _ => ⟨.JP, 0x1000, 0xF000⟩
  | .call _ => ⟨.CALL, 0x2000, 0xF000⟩
  | .seByte _ _ => ⟨.SE_BYTE, 0x3000, 0xF000⟩
  | .sneByte _ _ => ⟨.SNE_BYTE, 0x4000, 0xF000⟩
  | .ldByte _ _ => ⟨.LD_BYTE, 0x6000, 0xF000⟩
  | .addByte _ _ => ⟨.ADD_BYTE, 0x7000, 0xF000⟩
  | .ldReg _ _ => ⟨.LD_REG, 0x8000, 0xF00F⟩
  | .andReg _ _ => ⟨.AND_REG, 0x8002, 0xF00F⟩
  | .xorReg _ _ => ⟨.XOR_REG, 0x8003, 0xF00F⟩
  | .addReg _ _ => ⟨.ADD_REG, 0x8004, 0xF00F⟩
  | .shl _ _ => ⟨.SHL, 0x800E, 0xF00F⟩
  | .ldI _ => ⟨.LD_I, 0xA000, 0xF000⟩
  | .rnd _ _ => ⟨.RND, 0xC000, 0xF000⟩
  | .addI _ => ⟨.ADD_I, 0xF01E, 0xF0FF⟩

end Sys2Proof
end

