-- ==== Sys2Proof/Config.lean ====
section
/-! DEFINITION. What an implementation fixes (00_scope.md R8, R9: SPW and RESET_PC, the block's only free parameters)
and the one free value the model needs at reset. Each is a constant without a body. -/

namespace Sys2Proof

/-- How many bits `SP` has above the four that select a slot. OPEN, any number (92_eei_decisions.md D4; log 1). -/
opaque Config.spExtraBits : Nat

/-- `SPW`, the width of the stack pointer: OPEN, any integer of at least 4 (00_scope.md R8; log 1). -/
abbrev Config.SPW : Nat := Config.spExtraBits + 4

/-- `RESET_PC`, the entry point after reset: OPEN, any 16-bit value (10_state.md R38, 92_eei_decisions.md D10; log 2). -/
opaque Config.RESET_PC : Word

/-- What the random input shows before the host has sent any EXEC: a free value (43_index_and_random.md R206; log 3). -/
opaque Config.idleRnd : Byte

end Sys2Proof
end

