-- ==== Sys2Proof/Machine/State.lean ====
section
/-! DEFINITION. The state of the block (10_state.md R20), what the host has asked of it, the reasons a step can name,
and the state after reset (10_state.md R38). -/

namespace Sys2Proof.Machine

/-- A boundary operation (10_state.md R40): the block performs one per transition. -/
inductive BoundaryOp where
  /-- `EXEC(w, rnd)` (10_state.md R41). -/
  | exec (w : Word) (rnd : Byte)
  /-- `WRITE_V(i, v)` (10_state.md R42). -/
  | writeV (i : RegIdx) (v : Byte)
  /-- `ADVANCE` (10_state.md R43). -/
  | advance
  /-- `RESET` (10_state.md R44, 70_reset_and_hazards.md R260). -/
  | reset
  deriving DecidableEq, Repr

/-- The block's one fault. -/
inductive Fault where
  /-- `UNSUPPORTED_WORD`, with the word (60_exceptions.md R231). Raised by EXEC of a word that decodes to nothing while
  FAULT = 0; the block takes it, so it is recorded in `State.faultInfo` of a next state and is no outcome of a step.
  Safe for the block; unsafe for a claim about the original software that reads the state after it (R232; log 5). -/
  | unsupportedWord (w : Word)
  deriving DecidableEq, Repr

/-- Why a step may have no meaning. -/
inductive Refusal where
  /-- An instruction with no meaning in this model, by its mnemonic. Safe. No arm of `exec` raises it. -/
  | notModelled (mnemonic : String)
  deriving DecidableEq, Repr

/-- The cause code of a fault: the block has one cause, numbered 1 (60_exceptions.md R231). -/
def Fault.causeCode : Fault → Nat
  | .unsupportedWord _ => 1

end Sys2Proof.Machine

namespace Sys2Proof.Machine

/-- The block's state `(V, I, S, SP, PC, FAULT)` "and nothing else" (10_state.md R20), then three fields of the model's
own that are no state of the block: the recorded fault, the latched random input and the host's pending operations. -/
structure State where
  /-- `V0`..`VF`, the general registers (10_state.md R21); `VF` is `v[15]` (R22). -/
  v : Vector Byte 16
  /-- `I`, the index register (10_state.md R25). -/
  i : Word
  /-- `S[0]`..`S[15]`, the call/return stack (10_state.md R29). -/
  stack : Vector Word 16
  /-- `SP`, the stack pointer, `SPW` bits (10_state.md R30). -/
  sp : BitVec Config.SPW
  /-- `PC`, the program counter (10_state.md R26). -/
  pc : Word
  /-- `FAULT`, the sticky fault flag (10_state.md R32). -/
  fault : Bool
  /-- The model's own: the information of the recorded fault (60_exceptions.md R231; logs 5, 6). -/
  faultInfo : Option Fault
  /-- The model's own: the random input of the EXEC being performed (10_state.md R41; log 3). -/
  rnd : Byte
  /-- The model's own: the operations the host has issued, oldest first (10_state.md R40, R47; log 4). -/
  pending : List BoundaryOp
  deriving DecidableEq, Repr

/-- The state right after reset (10_state.md R38, 70_reset_and_hazards.md R260), with nothing pending (logs 3, 4, 6). -/
def State.reset : State where
  v := Vector.replicate 16 0
  i := 0
  stack := Vector.replicate 16 0
  sp := 0
  pc := Config.RESET_PC
  fault := false
  faultInfo := none
  rnd := Config.idleRnd
  pending := []

/-- The outcome of a step or of an instruction. -/
abbrev Result := Host.Outcome State Fault Refusal

/-- What the block's accessors show (10_state.md R45). -/
structure Accessors where
  pc : Word
  sp : BitVec Config.SPW
  i : Word
  v : Vector Byte 16
  stack : Vector Word 16
  fault : Bool
  deriving DecidableEq, Repr

end Sys2Proof.Machine
end

