-- ==== Sys2Proof/Machine/Ops.lean ====
section
/-! DEFINITION. The named operations over the block's registers, stack and program counter; taking the block's one fault
(60_exceptions.md R231) and leaving it (60_exceptions.md R236), which only reset does. -/

namespace Sys2Proof.Machine

/-- `V[x]` (00_scope.md §4). -/
def State.readV (s : State) (x : RegIdx) : Byte := s.v[x.toNat]

/-- `V[x] <- b` (00_scope.md §4): every index is an ordinary register, `VF` too (10_state.md R21, R22). -/
def State.writeV (s : State) (x : RegIdx) (b : Byte) : State := { s with v := s.v.set x.toNat b }

/-- `SP & 0xF`, written `SP[3:0]` (10_state.md R29). -/
def slotIndex (sp : BitVec Config.SPW) : SlotIdx := sp.extractLsb' 0 4

/-- `S[j]`. -/
def State.readSlot (s : State) (j : SlotIdx) : Word := s.stack[j.toNat]

/-- `S[j] <- a`. -/
def State.writeSlot (s : State) (j : SlotIdx) (a : Word) : State := { s with stack := s.stack.set j.toNat a }

/-- `I <- a`. -/
def State.setI (s : State) (a : Word) : State := { s with i := a }

/-- `SP <- p`. -/
def State.setSp (s : State) (p : BitVec Config.SPW) : State := { s with sp := p }

/-- `PC <- a`. -/
def State.setPc (s : State) (a : Word) : State := { s with pc := a }

/-- `PC <- (PC + 2) mod 2^16` (10_state.md R28, R43). -/
def State.pcPlusTwo (s : State) : State := s.setPc (s.pc + 2)

/-- What the accessors show: the block's whole state, without side effect (10_state.md R45). -/
def State.accessors (s : State) : Accessors := ⟨s.pc, s.sp, s.i, s.v, s.stack, s.fault⟩

/-- The value `FAULT` shows: 0 for no fault, 1 for `UNSUPPORTED_WORD` (60_exceptions.md R231). -/
def State.faultCode (s : State) : Nat := if s.fault then 1 else 0

/-- Taking the fault (60_exceptions.md R231, R235): `FAULT <- 1` and nothing else of the block written; the model records
the information the fault carries (log 5). -/
def State.raiseFault (s : State) (f : Fault) : State := { s with fault := true, faultInfo := some f }

/-- Leaving the fault, and the whole of RESET (70_reset_and_hazards.md R260, 60_exceptions.md R236): every piece of the
block's state to its reset value, whatever it was. The host's pending operations and the latched input stay (log 6). -/
def State.resetBlock (s : State) : State := { State.reset with rnd := s.rnd, pending := s.pending }

/-- The random input of the EXEC being performed (10_state.md R41; log 3). -/
def State.latchRnd (s : State) (r : Byte) : State := { s with rnd := r }

/-- The operations still pending after the block has taken the oldest. -/
def State.withPending (s : State) (ops : List BoundaryOp) : State := { s with pending := ops }

end Sys2Proof.Machine
end

