-- ==== Sys2Proof/Machine/Operands.lean ====
section
/-! DEFINITION. The operand forms of the fifteen instructions (30_encoding.md R72): a register named by a 4-bit index
(`State.readV`), an immediate byte used as it stands, a 12-bit address zero-extended to 16 bits, a register byte
zero-extended for a sum with `I`, and the random input. -/

namespace Sys2Proof.Machine

/-- `zext_16(nnn)` (30_encoding.md R72); CALL's `nnn & 0xFFF` is the same value (40_control_flow.md R110). -/
def zextAddr (nnn : Addr) : Word := nnn.setWidth 16

/-- `zext_16(V[x])` (43_index_and_random.md R210). -/
def zextByte (b : Byte) : Word := b.setWidth 16

/-- `rnd & kk`, the operand of RND (43_index_and_random.md R205). -/
def State.maskedRandom (s : State) (kk : Byte) : Byte := s.rnd &&& kk

end Sys2Proof.Machine
end

