-- ==== Sys2Proof/Machine/ControlFlow.lean ====
section
/-! DEFINITION. Control transfer: RET, JP, CALL, SE, SNE (40_control_flow.md R95 to R133). The fetch loop's `+2` is part of
none of them (10_state.md R27). -/

namespace Sys2Proof.Machine

/-- RET (40_control_flow.md R100): the slot is read before `SP` changes. -/
def execRet (s : State) : Result :=
  let s1 := s.setPc (s.readSlot (slotIndex s.sp))
  .next (s1.setSp (s1.sp - 1))

/-- JP addr (40_control_flow.md R105): `PC <- (zext_16(nnn) - 2) mod 2^16`. -/
def execJp (nnn : Addr) (s : State) : Result := .next (s.setPc (zextAddr nnn - 2))

/-- CALL addr (40_control_flow.md R110): `SP` is raised first, the slot it then selects receives the call's own address,
and `PC` receives the target without compensation (R112). -/
def execCall (nnn : Addr) (s : State) : Result :=
  let s1 := s.setSp (s.sp + 1)
  let s2 := s1.writeSlot (slotIndex s1.sp) s1.pc
  .next (s2.setPc (zextAddr nnn))

/-- SE Vx, byte (40_control_flow.md R121, R133). -/
def execSeByte (x : RegIdx) (kk : Byte) (s : State) : Result :=
  .next (if s.readV x = kk then s.pcPlusTwo else s)

/-- SNE Vx, byte (40_control_flow.md R131, R133). -/
def execSneByte (x : RegIdx) (kk : Byte) (s : State) : Result :=
  .next (if s.readV x ≠ kk then s.pcPlusTwo else s)

end Sys2Proof.Machine
end

