-- ==== Sys2Proof/Machine/IndexRandom.lean ====
section
/-! DEFINITION. Index register and random instructions: LD I, addr; RND Vx, byte; ADD I, Vx (43_index_and_random.md R200 to
R211). -/

namespace Sys2Proof.Machine

/-- LD I, addr (43_index_and_random.md R200). -/
def execLdI (nnn : Addr) (s : State) : Result := .next (s.setI (zextAddr nnn))

/-- RND Vx, byte (43_index_and_random.md R205): the byte is the random input of the EXEC (10_state.md R41; log 3). -/
def execRnd (x : RegIdx) (kk : Byte) (s : State) : Result := .next (s.writeV x (s.maskedRandom kk))

/-- ADD I, Vx (43_index_and_random.md R210): modulo 2^16, no 12-bit mask, no flag. -/
def execAddI (x : RegIdx) (s : State) : Result := .next (s.setI (s.i + zextByte (s.readV x)))

end Sys2Proof.Machine
end

