-- ==== Sys2Proof/Machine/Flags.lean ====
section
/-! DEFINITION. The two values that instructions write to `VF` as a flag (10_state.md R33), and the exact sum one of them
is read from. The block has no other flags. -/

namespace Sys2Proof.Machine

/-- The index of `VF` (10_state.md R22). -/
abbrev VF : RegIdx := 0xF

/-- `sum = V[x] + V[y]`, exact, 0..510 (42_register_register.md R185). -/
def exactSum (a b : Byte) : Nat := a.toNat + b.toNat

/-- `sum mod 256`. -/
def sumByte (a b : Byte) : Byte := BitVec.ofNat 8 (exactSum a b % 256)

/-- `(sum > 255) ? 0x01 : 0x00` (42_register_register.md R185). -/
def carryOut (a b : Byte) : Byte := if exactSum a b > 255 then 0x01 else 0x00

/-- `(b >> 7) & 0x01`, the bit a left shift pushes out (42_register_register.md R190). -/
def shiftedOut (b : Byte) : Byte := (b >>> 7) &&& 0x01

/-- `(b << 1) mod 256` (42_register_register.md R190). -/
def shiftedLeft (b : Byte) : Byte := b <<< 1

end Sys2Proof.Machine
end

