-- ==== Sys2Proof/Machine/RegisterImmediate.lean ====
section
/-! DEFINITION. Register-immediate instructions: LD Vx, byte and ADD Vx, byte (41_register_immediate.md R150 to R156). -/

namespace Sys2Proof.Machine

/-- LD Vx, byte (41_register_immediate.md R150). -/
def execLdByte (x : RegIdx) (kk : Byte) (s : State) : Result := .next (s.writeV x kk)

/-- ADD Vx, byte (41_register_immediate.md R155): modulo 256, no flag. -/
def execAddByte (x : RegIdx) (kk : Byte) (s : State) : Result := .next (s.writeV x (sumByte (s.readV x) kk))

end Sys2Proof.Machine
end

