-- ==== Sys2Proof/Machine/RegisterRegister.lean ====
section
/-! DEFINITION. The 8xy_ family: LD, AND, XOR, ADD, SHL (42_register_register.md R170 to R191). Statements act in the order
written, which matters where `x = 0xF` (92_eei_decisions.md D7; log 8). -/

namespace Sys2Proof.Machine

/-- LD Vx, Vy (42_register_register.md R170). -/
def execLdReg (x y : RegIdx) (s : State) : Result := .next (s.writeV x (s.readV y))

/-- AND Vx, Vy (42_register_register.md R175). -/
def execAndReg (x y : RegIdx) (s : State) : Result := .next (s.writeV x (s.readV x &&& s.readV y))

/-- XOR Vx, Vy (42_register_register.md R180). -/
def execXorReg (x y : RegIdx) (s : State) : Result := .next (s.writeV x (s.readV x ^^^ s.readV y))

/-- ADD Vx, Vy (42_register_register.md R185): the sum is of the old values, `V[x]` is written, then `VF`. -/
def execAddReg (x y : RegIdx) (s : State) : Result :=
  let a := s.readV x
  let b := s.readV y
  let s1 := s.writeV x (sumByte a b)
  .next (s1.writeV VF (carryOut a b))

/-- SHL Vx {,Vy} (42_register_register.md R190): `VF` is written first, and the shift reads `V[x]` as that left it. The
second field is ignored (30_encoding.md R77). -/
def execShl (x _y : RegIdx) (s : State) : Result :=
  let s1 := s.writeV VF (shiftedOut (s.readV x))
  .next (s1.writeV x (shiftedLeft (s1.readV x)))

end Sys2Proof.Machine
end

