-- ==== Sys2Proof/Machine/Boundary.lean ====
section
/-! DEFINITION. The block's four boundary operations (10_state.md R40 to R44). -/

namespace Sys2Proof.Machine

/-- `EXEC(w, rnd)` (10_state.md R41): no effect while FAULT = 1 (R32), the fault for an unsupported word
(60_exceptions.md R231), else the rule of the instruction with the random input latched (log 3). -/
def execOp (w : Word) (rnd : Byte) (s : State) : Result :=
  if s.fault then .next s
  else
    match decode w with
    | none => .next (s.raiseFault (.unsupportedWord w))
    | some i => exec i (s.latchRnd rnd)

/-- `WRITE_V(i, v)` (10_state.md R42): no effect while FAULT = 1. -/
def writeVOp (i : RegIdx) (b : Byte) (s : State) : State := if s.fault then s else s.writeV i b

/-- The value a host presents to the 8-bit port of WRITE_V: a wider number arrives as its low 8 bits (10_state.md R42). -/
def hostByte (u : Nat) : Byte := BitVec.ofNat 8 (u % 256)

/-- `ADVANCE` (10_state.md R43): no effect while FAULT = 1. -/
def advanceOp (s : State) : State := if s.fault then s else s.pcPlusTwo

/-- One boundary operation, whole and atomic (10_state.md R40). -/
def performOp : BoundaryOp → State → Result
  | .exec w rnd, s => execOp w rnd s
  | .writeV i b, s => .next (writeVOp i b s)
  | .advance, s => .next (advanceOp s)
  | .reset, s => .next s.resetBlock

/-- The block's next transition: the oldest pending operation is taken and performed; with none the state is held
(60_exceptions.md R243; log 4). -/
def takeStep (s : State) : Result :=
  match s.pending with
  | [] => .next s
  | op :: rest => performOp op (s.withPending rest)

/-- One EXEC of a word issued before every other pending operation, the random input as the latch shows it (log 4). -/
def presentWord (w : Word) (s : State) : State := s.withPending (.exec w s.rnd :: s.pending)

end Sys2Proof.Machine
end

