-- ==== Sys2Proof/Machine/Step.lean ====
section
/-! DEFINITION. One step of the machine, and the placing of one instruction word where the step takes it. -/

namespace Sys2Proof.Machine

/-- One transition: one boundary operation (10_state.md R40). -/
def step (s : State) : Host.Outcome State Fault Refusal := takeStep s

/-- The state with one instruction word presented to the block, so that the very next step executes it (logs 4, 13). -/
def State.withFetchWord (s : State) (nbits w : Nat) : State := presentWord (tableWord nbits w) s

end Sys2Proof.Machine
end

