-- ==== Sys2Proof/Machine/Memory.lean ====
section
/-! DEFINITION. The memory M of the reference harness (20_memory.md R62): 4096 bytes, held as the bytes that are not 0x00.
The block itself has no memory (20_memory.md R50). -/

namespace Sys2Proof.Machine

/-- Address and byte pairs in one canonical form (`Memory.wf`). -/
abbrev Memory := List Host.Cell

/-- How many bytes M has: addresses `0x000`..`0xFFF` (20_memory.md R62). -/
def Memory.size : Nat := 4096

/-- What an address that nothing is listed for reads as: every byte the program does not place is 0x00 (20_memory.md R62). -/
def Memory.unlisted : Byte := 0x00

/-- Every address of the list lies above `a`. -/
def Memory.above (a : Nat) : Memory → Bool
  | [] => true
  | c :: m => decide (a < c.1) && Memory.above a m

/-- The canonical form: addresses strictly rising and inside M, no listed byte equal to an unlisted one. -/
def Memory.wf : Memory → Bool
  | [] => true
  | c :: m => decide (c.1 < Memory.size) && decide (c.2 ≠ Memory.unlisted) && Memory.above c.1 m && Memory.wf m

/-- The byte at an address of M. -/
def Memory.read : Memory → Nat → Byte
  | [], _ => Memory.unlisted
  | c :: m, a => if c.1 = a then c.2 else Memory.read m a

/-- The list with the byte at `a` taken out. -/
def Memory.erase : Memory → Nat → Memory
  | [], _ => []
  | c :: m, a => if c.1 = a then m else c :: Memory.erase m a

/-- The list with a byte put in at its place by address, for an address it does not list. -/
def Memory.insert : Memory → Nat → Byte → Memory
  | [], a, b => [(a, b)]
  | c :: m, a, b => if a < c.1 then (a, b) :: c :: m else c :: Memory.insert m a b

/-- The memory with one byte written: an address outside M does not exist. -/
def Memory.write (m : Memory) (a : Nat) (b : Byte) : Option Memory :=
  if a < Memory.size then
    some (if b = Memory.unlisted then Memory.erase m a else Memory.insert (Memory.erase m a) a b)
  else none

/-- A program's bytes placed from an address upward in the order written (20_memory.md R62); none where a byte would lie
outside M (log 9). -/
def Memory.place : Memory → Nat → List Byte → Option Memory
  | m, _, [] => some m
  | m, a, b :: bs =>
    match Memory.write m a b with
    | none => none
    | some m' => Memory.place m' (a + 1) bs

/-- `w = (M[PC] << 8) | M[PC + 1]`, the lower address most significant; no fetch above 0x0FFE (20_memory.md R63). -/
def Memory.fetchWord (m : Memory) (pc : Word) : Option Word :=
  if pc.toNat > 0x0FFE then none else some (Memory.read m pc.toNat ++ Memory.read m (pc.toNat + 1))

end Sys2Proof.Machine
end

