-- ==== Sys2Proof/Machine/Harness.lean ====
section
/-! DEFINITION. The reference harness (20_memory.md R62 to R65): a fetch loop over the block's operations. It is outside the
block and no rule of the block depends on it; the end of its run says nothing of the repository's own loop (R65). -/

namespace Sys2Proof.Machine

/-- The harness: the block and the memory M (20_memory.md R62). -/
structure Harness where
  core : State
  mem : Memory
  deriving DecidableEq, Repr

/-- How a harness run ends (20_memory.md R65). -/
inductive RunEnd where
  /-- The word at `PC` is a jump to `PC`. -/
  | halt
  /-- `FAULT = 1`, `PC` at the unsupported word. -/
  | faulted
  /-- `PC > 0x0FFE`. -/
  | fetchRange
  /-- The step budget is used up (log 10). -/
  | budget
  deriving DecidableEq, Repr

/-- What one harness step gives: the run goes on, or it has ended. -/
inductive HarnessStep where
  | running (h : Harness)
  | ended (e : RunEnd) (h : Harness)
  deriving DecidableEq, Repr

/-- The outcome of a harness step: what the block's own operation answers besides a next state is passed on. -/
abbrev HarnessResult := Host.Outcome HarnessStep Fault Refusal

/-- The reset state with a program placed in M from RESET_PC upward (20_memory.md R62, R65); none where it does not fit
(log 9). -/
def Harness.load (program : List Byte) : Option Harness :=
  (Memory.place [] State.reset.pc.toNat program).map (fun m => ⟨State.reset, m⟩)

/-- `w[15:12] = 0x1 and zext_16(w[11:0]) = PC`: a jump to itself (20_memory.md R64). -/
def isSelfJump (w pc : Word) : Bool := decide (w.extractLsb' 12 4 = 0x1#4 ∧ zextAddr (fieldNNN w) = pc)

/-- EXEC of the fetched word, then the end FAULTED or the ADVANCE (20_memory.md R64). -/
def Harness.execAdvance (w : Word) (rnd : Byte) (h : Harness) : HarnessResult :=
  match execOp w rnd h.core with
  | .next s =>
    if s.fault then .next (.ended .faulted ⟨s, h.mem⟩) else .next (.running ⟨advanceOp s, h.mem⟩)
  | .fault r => .fault r
  | .refused r => .refused r

/-- One harness step (20_memory.md R64), which is taken while FAULT = 0. -/
def Harness.step (rnd : Byte) (h : Harness) : HarnessResult :=
  if h.core.fault then .next (.ended .faulted h)
  else
    match h.mem.fetchWord h.core.pc with
    | none => .next (.ended .fetchRange h)
    | some w => if isSelfJump w h.core.pc then .next (.ended .halt h) else h.execAdvance w rnd

/-- A harness run (20_memory.md R65): the k-th step takes the k-th random byte, and the list is the step budget (log 10). -/
def Harness.run : List Byte → Harness → HarnessResult
  | [], h => .next (.ended .budget h)
  | r :: rs, h =>
    match h.step r with
    | .next (.running h') => Harness.run rs h'
    | .next (.ended e h') => .next (.ended e h')
    | .fault f => .fault f
    | .refused f => .refused f

end Sys2Proof.Machine
end

