-- ==== Sys2Proof/Safety.lean ====
section
/-! DEFINITION. What counts as a safe run (60_exceptions.md R232), the host's duties (10_state.md R47,
70_reset_and_hazards.md R265, R266, R270), and the frames claims are stated with. -/

namespace Sys2Proof.Machine

/-- No fault is recorded: what a claim about a run must assume of every state it reads (60_exceptions.md R232). -/
def NoFaultRecorded (s : State) : Prop := s.fault = false

/-- `k` steps lead from `s` to `t`, and no state on the way records a fault (60_exceptions.md R232). -/
def StepsWithoutFault : Nat → State → State → Prop
  | 0, s, t => NoFaultRecorded s ∧ s = t
  | k + 1, s, t => NoFaultRecorded s ∧ ∃ u, step s = .next u ∧ StepsWithoutFault k u t

/-- The FAULT flag agrees with the recorded information: it is 1 exactly when a word is recorded, and that word is one the
decoder does not support (60_exceptions.md R231). -/
def FaultAgrees (s : State) : Prop :=
  match s.faultInfo with
  | none => s.fault = false
  | some (.unsupportedWord w) => s.fault = true ∧ decode w = none

/-- The fetch loop's convention: one ADVANCE after every EXEC (10_state.md R47, 70_reset_and_hazards.md R270). -/
def execAdvancePairs : List (Word × Byte) → List BoundaryOp
  | [] => []
  | p :: ps => .exec p.1 p.2 :: .advance :: execAdvancePairs ps

/-- The boot order: RESET, any register writes, then EXEC and ADVANCE pairs (70_reset_and_hazards.md R266). -/
def bootOrder (writes : List (RegIdx × Byte)) (words : List (Word × Byte)) : List BoundaryOp :=
  .reset :: (writes.map (fun p => .writeV p.1 p.2) ++ execAdvancePairs words)

/-- Every general register is unchanged. -/
def SameRegisters (s t : State) : Prop := ∀ x, t.readV x = s.readV x

/-- Every general register but those named is unchanged. -/
def SameRegistersBut (xs : List RegIdx) (s t : State) : Prop := ∀ x, x ∉ xs → t.readV x = s.readV x

/-- Every stack slot is unchanged. -/
def SameStack (s t : State) : Prop := ∀ j, t.readSlot j = s.readSlot j

/-- FAULT is unchanged, and so are the model's own fields: the recorded fault, the latched input, the pending operations. -/
def SameFaultAndHost (s t : State) : Prop :=
  t.fault = s.fault ∧ t.faultInfo = s.faultInfo ∧ t.rnd = s.rnd ∧ t.pending = s.pending

/-- The registers an instruction writes (10_state.md R24). -/
def writesV : Instr → List RegIdx
  | .ldByte x _ | .addByte x _ | .ldReg x _ | .andReg x _ | .xorReg x _ | .rnd x _ => [x]
  | .addReg x _ => [x, VF]
  | .shl x _ => [VF, x]
  | .ret | .jp _ | .call _ | .seByte _ _ | .sneByte _ _ | .ldI _ | .addI _ => []

/-- The registers an instruction reads (10_state.md R24). -/
def readsV : Instr → List RegIdx
  | .seByte x _ | .sneByte x _ | .addByte x _ | .shl x _ | .addI x => [x]
  | .andReg x y | .xorReg x y | .addReg x y => [x, y]
  | .ldReg _ y => [y]
  | .ldByte _ _ | .rnd _ _ | .ret | .jp _ | .call _ | .ldI _ => []

/-- The address of the next word executed, under the convention, from an instruction at `PC` (70_reset_and_hazards.md
R270's table, modulo 2^16). -/
def nextWordAddress (i : Instr) (s : State) : Nat :=
  match i with
  | .jp nnn => nnn.toNat
  | .call nnn => nnn.toNat + 2
  | .ret => ((s.readSlot (slotIndex s.sp)).toNat + 2) % 2 ^ 16
  | .seByte x kk => if s.readV x = kk then (s.pc.toNat + 4) % 2 ^ 16 else (s.pc.toNat + 2) % 2 ^ 16
  | .sneByte x kk => if s.readV x = kk then (s.pc.toNat + 2) % 2 ^ 16 else (s.pc.toNat + 4) % 2 ^ 16
  | .ldByte _ _ | .addByte _ _ | .ldReg _ _ | .andReg _ _ | .xorReg _ _ | .addReg _ _ | .shl _ _ | .ldI _ | .rnd _ _
  | .addI _ => (s.pc.toNat + 2) % 2 ^ 16

/-- The depth of live calls after one instruction, from depth `d`: `none` when a CALL would pass `limit` further live
calls, or when a RET meets depth 0 (40_control_flow.md R113). -/
def depthAfter (limit d : Nat) : Instr → Option Nat
  | .call _ => if d < limit then some (d + 1) else none
  | .ret => if d = 0 then none else some (d - 1)
  | .jp _ | .seByte _ _ | .sneByte _ _ | .ldByte _ _ | .addByte _ _ | .ldReg _ _ | .andReg _ _ | .xorReg _ _
  | .addReg _ _ | .shl _ _ | .ldI _ | .rnd _ _ | .addI _ => some d

/-- The depth of live calls after a sequence of words: `none` also when a word is unsupported (40_control_flow.md R113:
balanced, at most `limit` further calls live). -/
def callDepth (limit : Nat) : Nat → List (Word × Byte) → Option Nat
  | d, [] => some d
  | d, p :: ps => ((decode p.1).bind (depthAfter limit d)).bind (fun d' => callDepth limit d' ps)

end Sys2Proof.Machine
end

