-- ==== Sys2Proof/Certificates/Slice0/Obligations.lean ====
section
/-! DEFINITION. The statements for the provers. Each docstring names the rule of the spec it formalises; a clause that rests
on a decision the spec marks as its own, or on the model's, says so. -/

open Sys2Proof Sys2Proof.Machine

/-! ## Encoding -/

/-- 30_encoding.md R73, R78: decoding the word of an instruction gives it back, with every operand. -/
def Obligations.DecodeOfEncode : Prop := ∀ i : Instr, decode (encode i) = some i

/-- 30_encoding.md R73, R78: a supported word is the word of the instruction it decodes to, so that decoding loses no bit
(the second field of SHL is kept: log 11, the model's choice). -/
def Obligations.EncodeOfDecode : Prop := ∀ (w : Word) (i : Instr), decode w = some i → encode i = w

/-- 30_encoding.md R79 (derived there): no word matches two rows of the table. -/
def Obligations.NoWordMatchesTwoRows : Prop :=
  ∀ (w : Word) (r q : Row), r ∈ rows → q ∈ rows → r.matchesWord w = true → q.matchesWord w = true → r = q

/-- 30_encoding.md R80 (derived there; 92_eei_decisions.md D6; log 8): the unsupported words, by ranges and digits of the
word's number. -/
def Obligations.UnsupportedWordsExactly : Prop :=
  ∀ w : Word, decode w = none ↔
    (w.toNat < 0x1000 ∧ w.toNat ≠ 0x00EE) ∨
    (0x5000 ≤ w.toNat ∧ w.toNat < 0x6000) ∨ (0x9000 ≤ w.toNat ∧ w.toNat < 0xA000) ∨
    (0xB000 ≤ w.toNat ∧ w.toNat < 0xC000) ∨ (0xD000 ≤ w.toNat ∧ w.toNat < 0xF000) ∨
    (0x8000 ≤ w.toNat ∧ w.toNat < 0x9000 ∧ w.toNat % 16 ∈ [1, 5, 6, 7, 8, 9, 0xA, 0xB, 0xC, 0xD, 0xF]) ∨
    (0xF000 ≤ w.toNat ∧ w.toNat % 256 ≠ 0x1E)

/-- 95_test_vectors.md: words of the listings and of the vectors of unsupported words. -/
def Obligations.ListedWordsDecode : Prop :=
  decode 0x00EE = some .ret ∧ decode 0x1216 = some (.jp 0x216) ∧ decode 0x220E = some (.call 0x20E) ∧
  decode 0x4E32 = some (.sneByte 0xE 0x32) ∧ decode 0x70FF = some (.addByte 0x0 0xFF) ∧
  decode 0x8AB4 = some (.addReg 0xA 0xB) ∧ decode 0x81FE = some (.shl 0x1 0xF) ∧
  decode 0xC50F = some (.rnd 0x5 0x0F) ∧ decode 0xF21E = some (.addI 0x2) ∧
  decode 0x00E0 = none ∧ decode 0x01EE = none ∧ decode 0x8121 = none ∧ decode 0xF01F = none

/-- 42_register_register.md R191 (derived there): words `8xyE` that differ in `y` alone take one step to the same state. -/
def Obligations.ShlWordIgnoresSecondField : Prop :=
  ∀ (s : State) (w w' : Word) (r : Byte) (rest : List BoundaryOp),
    w &&& 0xF00F = 0x800E → w' &&& 0xFF0F = w &&& 0xFF0F →
    step { s with pending := .exec w r :: rest } = step { s with pending := .exec w' r :: rest }

/-! ## Control transfer -/

/-- 40_control_flow.md R100. The width of `SP`, and so its wrap modulo 2^SPW, is the spec's own decision (10_state.md R30,
92_eei_decisions.md D4) and is left open here (log 1). -/
def Obligations.RetReturnsToSlot : Prop :=
  decode 0x00EE = some .ret ∧
  ∀ s : State, ∃ t, exec .ret s = .next t ∧
    t.pc = s.readSlot (BitVec.ofNat 4 s.sp.toNat) ∧
    t.sp.toNat = (s.sp.toNat + (2 ^ Config.SPW - 1)) % 2 ^ Config.SPW ∧
    SameRegisters s t ∧ t.i = s.i ∧ SameStack s t ∧ SameFaultAndHost s t

/-- 40_control_flow.md R105: `nnn - 2` modulo 2^16. The wrap at `nnn < 2` (R106, 10_state.md R28) is the spec's own decision
(92_eei_decisions.md D5), which the model takes as a choice (log 8). -/
def Obligations.JpJumpsTwoBelow : Prop :=
  (∀ w : Word, w &&& 0xF000 = 0x1000 → decode w = some (.jp (w.setWidth 12))) ∧
  ∀ (nnn : Addr) (s : State), ∃ t, exec (.jp nnn) s = .next t ∧
    t.pc.toNat = (nnn.toNat + (2 ^ 16 - 2)) % 2 ^ 16 ∧
    SameRegisters s t ∧ t.i = s.i ∧ SameStack s t ∧ t.sp = s.sp ∧ SameFaultAndHost s t

/-- 40_control_flow.md R110: the raised `SP` selects the slot that receives the call's own address. The width of `SP`, and so
its wrap modulo 2^SPW, is the spec's own decision (10_state.md R30, 92_eei_decisions.md D4) and is left open here (log 1). -/
def Obligations.CallPushesItsAddress : Prop :=
  (∀ w : Word, w &&& 0xF000 = 0x2000 → decode w = some (.call (w.setWidth 12))) ∧
  ∀ (nnn : Addr) (s : State), ∃ t, exec (.call nnn) s = .next t ∧
    t.sp.toNat = (s.sp.toNat + 1) % 2 ^ Config.SPW ∧
    (∀ j : SlotIdx, j.toNat = t.sp.toNat % 16 → t.readSlot j = s.pc) ∧
    (∀ j : SlotIdx, j.toNat ≠ t.sp.toNat % 16 → t.readSlot j = s.readSlot j) ∧
    t.pc.toNat = nnn.toNat ∧
    SameRegisters s t ∧ t.i = s.i ∧ SameFaultAndHost s t

/-- 40_control_flow.md R121. The wrap of a taken skip at `PC` 0xFFFE and 0xFFFF (R122, 10_state.md R28) is the spec's own
decision (92_eei_decisions.md D5), which the model takes as a choice (log 8). -/
def Obligations.SeSkipsWhenEqual : Prop :=
  (∀ w : Word, w &&& 0xF000 = 0x3000 → decode w = some (.seByte ((w >>> 8).setWidth 4) (w.setWidth 8))) ∧
  ∀ (x : RegIdx) (kk : Byte) (s : State), ∃ t, exec (.seByte x kk) s = .next t ∧
    (s.readV x = kk → t.pc.toNat = (s.pc.toNat + 2) % 2 ^ 16) ∧ (s.readV x ≠ kk → t.pc = s.pc) ∧
    SameRegisters s t ∧ t.i = s.i ∧ SameStack s t ∧ t.sp = s.sp ∧ SameFaultAndHost s t

/-- 40_control_flow.md R131. The wrap of a taken skip at `PC` 0xFFFE and 0xFFFF (R132, 10_state.md R28) is the spec's own
decision (92_eei_decisions.md D5), which the model takes as a choice (log 8). -/
def Obligations.SneSkipsWhenDifferent : Prop :=
  (∀ w : Word, w &&& 0xF000 = 0x4000 → decode w = some (.sneByte ((w >>> 8).setWidth 4) (w.setWidth 8))) ∧
  ∀ (x : RegIdx) (kk : Byte) (s : State), ∃ t, exec (.sneByte x kk) s = .next t ∧
    (s.readV x ≠ kk → t.pc.toNat = (s.pc.toNat + 2) % 2 ^ 16) ∧ (s.readV x = kk → t.pc = s.pc) ∧
    SameRegisters s t ∧ t.i = s.i ∧ SameStack s t ∧ t.sp = s.sp ∧ SameFaultAndHost s t

/-! ## Register-immediate -/

/-- 41_register_immediate.md R150. -/
def Obligations.LdByteWritesImmediate : Prop :=
  (∀ w : Word, w &&& 0xF000 = 0x6000 → decode w = some (.ldByte ((w >>> 8).setWidth 4) (w.setWidth 8))) ∧
  ∀ (x : RegIdx) (kk : Byte) (s : State), ∃ t, exec (.ldByte x kk) s = .next t ∧
    t.readV x = kk ∧
    SameRegistersBut [x] s t ∧ t.i = s.i ∧ SameStack s t ∧ t.sp = s.sp ∧ t.pc = s.pc ∧ SameFaultAndHost s t

/-- 41_register_immediate.md R155: no flag, so `VF` is unchanged unless it is the destination. -/
def Obligations.AddByteWrapsWithoutFlag : Prop :=
  (∀ w : Word, w &&& 0xF000 = 0x7000 → decode w = some (.addByte ((w >>> 8).setWidth 4) (w.setWidth 8))) ∧
  ∀ (x : RegIdx) (kk : Byte) (s : State), ∃ t, exec (.addByte x kk) s = .next t ∧
    (t.readV x).toNat = ((s.readV x).toNat + kk.toNat) % 256 ∧
    SameRegistersBut [x] s t ∧ t.i = s.i ∧ SameStack s t ∧ t.sp = s.sp ∧ t.pc = s.pc ∧ SameFaultAndHost s t

/-! ## Register-register -/

/-- 42_register_register.md R170. -/
def Obligations.LdRegCopies : Prop :=
  (∀ w : Word, w &&& 0xF00F = 0x8000 → decode w = some (.ldReg ((w >>> 8).setWidth 4) ((w >>> 4).setWidth 4))) ∧
  ∀ (x y : RegIdx) (s : State), ∃ t, exec (.ldReg x y) s = .next t ∧
    t.readV x = s.readV y ∧
    SameRegistersBut [x] s t ∧ t.i = s.i ∧ SameStack s t ∧ t.sp = s.sp ∧ t.pc = s.pc ∧ SameFaultAndHost s t

/-- 42_register_register.md R175, bit by bit. -/
def Obligations.AndRegIsBitwise : Prop :=
  (∀ w : Word, w &&& 0xF00F = 0x8002 → decode w = some (.andReg ((w >>> 8).setWidth 4) ((w >>> 4).setWidth 4))) ∧
  ∀ (x y : RegIdx) (s : State), ∃ t, exec (.andReg x y) s = .next t ∧
    (∀ k, (t.readV x).getLsbD k = ((s.readV x).getLsbD k && (s.readV y).getLsbD k)) ∧
    SameRegistersBut [x] s t ∧ t.i = s.i ∧ SameStack s t ∧ t.sp = s.sp ∧ t.pc = s.pc ∧ SameFaultAndHost s t

/-- 42_register_register.md R180, bit by bit. -/
def Obligations.XorRegIsBitwise : Prop :=
  (∀ w : Word, w &&& 0xF00F = 0x8003 → decode w = some (.xorReg ((w >>> 8).setWidth 4) ((w >>> 4).setWidth 4))) ∧
  ∀ (x y : RegIdx) (s : State), ∃ t, exec (.xorReg x y) s = .next t ∧
    (∀ k, (t.readV x).getLsbD k = ((s.readV x).getLsbD k ^^ (s.readV y).getLsbD k)) ∧
    SameRegistersBut [x] s t ∧ t.i = s.i ∧ SameStack s t ∧ t.sp = s.sp ∧ t.pc = s.pc ∧ SameFaultAndHost s t

/-- 42_register_register.md R185: `VF` ends as the carry, and a destination other than `VF` holds the sum modulo 256. That
`8Fy4` leaves the carry, and not the sum, rests on the order of the two writes (R186), which the spec marks as its own
decision (92_eei_decisions.md D7, 93_implementation_defined.md U4) and the model takes as a choice (log 8). -/
def Obligations.AddRegWritesSumAndCarry : Prop :=
  (∀ w : Word, w &&& 0xF00F = 0x8004 → decode w = some (.addReg ((w >>> 8).setWidth 4) ((w >>> 4).setWidth 4))) ∧
  ∀ (x y : RegIdx) (s : State), ∃ t, exec (.addReg x y) s = .next t ∧
    t.readV 0xF = (if (s.readV x).toNat + (s.readV y).toNat > 255 then 0x01 else 0x00) ∧
    (x ≠ 0xF → (t.readV x).toNat = ((s.readV x).toNat + (s.readV y).toNat) % 256) ∧
    SameRegistersBut [x, 0xF] s t ∧ t.i = s.i ∧ SameStack s t ∧ t.sp = s.sp ∧ t.pc = s.pc ∧ SameFaultAndHost s t

/-- 42_register_register.md R190: for `x ≠ 0xF` the flag is the old bit 7 and `V[x]` the old value doubled modulo 256. For
`x = 0xF` the shift reads what the flag's write left, so `VF` ends at 0x02 or 0x00 (R191): that clause rests on the order of
the two writes, which the spec marks as its own decision (92_eei_decisions.md D7, 93_implementation_defined.md U4) and the
model takes as a choice (log 8). -/
def Obligations.ShlShiftsAndFlagsTopBit : Prop :=
  (∀ w : Word, w &&& 0xF00F = 0x800E → decode w = some (.shl ((w >>> 8).setWidth 4) ((w >>> 4).setWidth 4))) ∧
  ∀ (x y : RegIdx) (s : State), ∃ t, exec (.shl x y) s = .next t ∧
    (x ≠ 0xF → t.readV 0xF = (if (s.readV x).toNat ≥ 128 then 0x01 else 0x00) ∧
      (t.readV x).toNat = 2 * (s.readV x).toNat % 256) ∧
    (x = 0xF → t.readV 0xF = if (s.readV 0xF).toNat ≥ 128 then 0x02 else 0x00) ∧
    SameRegistersBut [x, 0xF] s t ∧ t.i = s.i ∧ SameStack s t ∧ t.sp = s.sp ∧ t.pc = s.pc ∧ SameFaultAndHost s t

/-! ## Index register and random -/

/-- 43_index_and_random.md R200: the upper four bits become 0. -/
def Obligations.LdIWritesAddress : Prop :=
  (∀ w : Word, w &&& 0xF000 = 0xA000 → decode w = some (.ldI (w.setWidth 12))) ∧
  ∀ (nnn : Addr) (s : State), ∃ t, exec (.ldI nnn) s = .next t ∧
    t.i.toNat = nnn.toNat ∧
    SameRegisters s t ∧ SameStack s t ∧ t.sp = s.sp ∧ t.pc = s.pc ∧ SameFaultAndHost s t

/-- 43_index_and_random.md R205, for every random input (the model's field `rnd`, log 3). -/
def Obligations.RndMasksRandomInput : Prop :=
  (∀ w : Word, w &&& 0xF000 = 0xC000 → decode w = some (.rnd ((w >>> 8).setWidth 4) (w.setWidth 8))) ∧
  ∀ (x : RegIdx) (kk : Byte) (s : State), ∃ t, exec (.rnd x kk) s = .next t ∧
    (∀ k, (t.readV x).getLsbD k = (s.rnd.getLsbD k && kk.getLsbD k)) ∧
    SameRegistersBut [x] s t ∧ t.i = s.i ∧ SameStack s t ∧ t.sp = s.sp ∧ t.pc = s.pc ∧ SameFaultAndHost s t

/-- 43_index_and_random.md R210: modulo 2^16, no mask to 12 bits, no flag. -/
def Obligations.AddIAddsRegister : Prop :=
  (∀ w : Word, w &&& 0xF0FF = 0xF01E → decode w = some (.addI ((w >>> 8).setWidth 4))) ∧
  ∀ (x : RegIdx) (s : State), ∃ t, exec (.addI x) s = .next t ∧
    t.i.toNat = (s.i.toNat + (s.readV x).toNat) % 2 ^ 16 ∧
    SameRegisters s t ∧ SameStack s t ∧ t.sp = s.sp ∧ t.pc = s.pc ∧ SameFaultAndHost s t

/-! ## Boundary operations, the fault, reset -/

/-- 10_state.md R41: EXEC of a supported word with FAULT = 0 is the instruction's rule, at the state with the operation
taken from the pending ones (log 4) and its random input latched (log 3). -/
def Obligations.StepRunsDecodedInstruction : Prop :=
  ∀ (s : State) (w : Word) (r : Byte) (rest : List BoundaryOp) (i : Instr),
    s.pending = .exec w r :: rest → s.fault = false → decode w = some i →
    step s = exec i { s with pending := rest, rnd := r }

/-- 60_exceptions.md R231 (92_eei_decisions.md D8): FAULT becomes 1 and nothing else the accessors show changes; the word is
recorded (log 5, the model's choice). -/
def Obligations.UnsupportedWordSetsFaultOnly : Prop :=
  ∀ (s : State) (w : Word) (r : Byte) (rest : List BoundaryOp),
    s.pending = .exec w r :: rest → s.fault = false → decode w = none →
    ∃ t, step s = .next t ∧ t.accessors = { s.accessors with fault := true } ∧ t.faultCode = 1 ∧
      t.faultInfo = some (.unsupportedWord w) ∧ t.rnd = s.rnd ∧ t.pending = rest

/-- 10_state.md R32 (92_eei_decisions.md D8): while FAULT = 1 an operation other than RESET changes nothing of the block. -/
def Obligations.FaultIsSticky : Prop :=
  ∀ (s : State) (op : BoundaryOp) (rest : List BoundaryOp),
    s.fault = true → s.pending = op :: rest → op ≠ .reset → step s = .next { s with pending := rest }

/-- 60_exceptions.md R236 (92_eei_decisions.md D15): a step leaves FAULT = 1 only by RESET. -/
def Obligations.FaultClearedOnlyByReset : Prop :=
  ∀ s t : State, s.fault = true → step s = .next t → t.fault = false → ∃ rest, s.pending = .reset :: rest

/-- 60_exceptions.md R230, R234: a step sets FAULT only by EXEC of a word the decoder does not support. -/
def Obligations.FaultSetOnlyByUnsupportedWord : Prop :=
  ∀ s t : State, s.fault = false → step s = .next t → t.fault = true →
    ∃ w r rest, s.pending = .exec w r :: rest ∧ decode w = none

/-- 60_exceptions.md R230: no operation can fail to give a next state. -/
def Obligations.EveryStepAnswersNext : Prop := ∀ s : State, ∃ t, step s = .next t

/-- 10_state.md R38 (92_eei_decisions.md D10; log 8): the values of the reset state. -/
def Obligations.ResetStateValues : Prop :=
  (∀ x, State.reset.readV x = 0x00) ∧ State.reset.i = 0x0000 ∧ (∀ j, State.reset.readSlot j = 0x0000) ∧
  State.reset.sp.toNat = 0 ∧ State.reset.pc = Config.RESET_PC ∧ State.reset.faultCode = 0

/-- 70_reset_and_hazards.md R260 (92_eei_decisions.md D10, D11; log 8): RESET gives every piece of the block's state its reset
value, whatever the state; the operations still pending stay (log 6, the model's choice). -/
def Obligations.ResetOperationResetsWholeBlock : Prop :=
  ∀ (s : State) (rest : List BoundaryOp), s.pending = .reset :: rest →
    ∃ t, step s = .next t ∧ (∀ x, t.readV x = 0x00) ∧ t.i = 0x0000 ∧ (∀ j, t.readSlot j = 0x0000) ∧ t.sp.toNat = 0 ∧
      t.pc = Config.RESET_PC ∧ t.fault = false ∧ t.faultInfo = none ∧ t.pending = rest

/-- 10_state.md R42 (92_eei_decisions.md D21; log 8): WRITE_V with FAULT = 0 writes the register and nothing else; a wider host
value reads back modulo 256. -/
def Obligations.WriteVWritesOneRegister : Prop :=
  ∀ (s : State) (x : RegIdx) (u : Nat) (rest : List BoundaryOp),
    s.pending = .writeV x (hostByte u) :: rest → s.fault = false →
    ∃ t, step s = .next t ∧ (t.readV x).toNat = u % 256 ∧ SameRegistersBut [x] s t ∧ t.i = s.i ∧ SameStack s t ∧
      t.sp = s.sp ∧ t.pc = s.pc ∧ t.fault = false ∧ t.faultInfo = s.faultInfo ∧ t.rnd = s.rnd ∧ t.pending = rest

/-- 10_state.md R43 (92_eei_decisions.md D2, D5; log 8): ADVANCE with FAULT = 0 adds 2 to `PC` modulo 2^16, odd values included, and
changes nothing else. -/
def Obligations.AdvanceAddsTwo : Prop :=
  ∀ (s : State) (rest : List BoundaryOp), s.pending = .advance :: rest → s.fault = false →
    ∃ t, step s = .next t ∧ t.pc.toNat = (s.pc.toNat + 2) % 2 ^ 16 ∧ SameRegisters s t ∧ t.i = s.i ∧ SameStack s t ∧
      t.sp = s.sp ∧ t.fault = false ∧ t.faultInfo = s.faultInfo ∧ t.rnd = s.rnd ∧ t.pending = rest

/-- 60_exceptions.md R243 (92_eei_decisions.md D18): with no operation issued the whole state is held (log 4). -/
def Obligations.NoOperationHoldsState : Prop := ∀ s : State, s.pending = [] → step s = .next s

/-- 60_exceptions.md R231 (92_eei_decisions.md D8): the FAULT flag agrees with the recorded word, which no step breaks. The
record is the model's own (log 5). -/
def Obligations.StepKeepsFaultAgreement : Prop :=
  ∀ s t : State, FaultAgrees s → step s = .next t → FaultAgrees t

/-- The reset state meets the invariant (log 6). -/
def Obligations.ResetFaultAgreement : Prop := FaultAgrees State.reset

/-! ## Rules of the whole machine -/

/-- 10_state.md R27: which instructions change `PC`, and SE and SNE only when they skip. -/
def Obligations.PcChangedOnlyByControlTransfer : Prop :=
  ∀ (i : Instr) (s : State), ∃ t, exec i s = .next t ∧
    (t.pc ≠ s.pc → i = .ret ∨ (∃ nnn, i = .jp nnn) ∨ (∃ nnn, i = .call nnn) ∨
      (∃ x kk, i = .seByte x kk ∧ s.readV x = kk) ∨ (∃ x kk, i = .sneByte x kk ∧ s.readV x ≠ kk))

/-- 10_state.md R24 (derived there), R22: an instruction writes no general register but those of its row. -/
def Obligations.RegistersWrittenAsTabled : Prop :=
  ∀ (i : Instr) (s : State), ∃ t, exec i s = .next t ∧ SameRegistersBut (writesV i) s t

/-- 10_state.md R24 (derived there): a register that the instruction's row does not read has no influence. If the row writes
it, the result does not depend on its old value; if not, it is carried through and everything else is the same. -/
def Obligations.UnreadRegistersDoNotMatter : Prop :=
  ∀ (i : Instr) (s t : State) (z : RegIdx) (b : Byte), z ∉ readsV i → exec i s = .next t →
    (z ∈ writesV i → exec i (s.writeV z b) = .next t) ∧
    (z ∉ writesV i → exec i (s.writeV z b) = .next (t.writeV z b))

/-- 10_state.md R41, R36: only RND reads the random input (the model's field `rnd`, log 3). -/
def Obligations.OnlyRndReadsRandomInput : Prop :=
  ∀ (i : Instr) (s t : State) (r : Byte), (∀ x kk, i ≠ .rnd x kk) → exec i s = .next t →
    exec i { s with rnd := r } = .next { t with rnd := r }

/-- 10_state.md R29: a step changes a stack slot only by EXEC of a CALL, or by RESET. -/
def Obligations.StackChangedOnlyByCallOrReset : Prop :=
  ∀ s t : State, step s = .next t → ¬ SameStack s t →
    (∃ w r rest nnn, s.pending = .exec w r :: rest ∧ decode w = some (.call nnn)) ∨ ∃ rest, s.pending = .reset :: rest

/-- 10_state.md R30: a step changes `SP` only by CALL, which adds 1, by RET, which subtracts 1, each modulo 2^SPW
(92_eei_decisions.md D4; log 1), or by RESET. -/
def Obligations.SpChangedOnlyByCallRetReset : Prop :=
  ∀ s t : State, step s = .next t → t.sp ≠ s.sp →
    (∃ w r rest nnn, s.pending = .exec w r :: rest ∧ decode w = some (.call nnn) ∧
      t.sp.toNat = (s.sp.toNat + 1) % 2 ^ Config.SPW) ∨
    (∃ w r rest, s.pending = .exec w r :: rest ∧ decode w = some .ret ∧
      s.sp.toNat = (t.sp.toNat + 1) % 2 ^ Config.SPW) ∨
    ((∃ rest, s.pending = .reset :: rest) ∧ t.sp.toNat = 0)

/-! ## Runs under the fetch loop's convention -/

/-- 70_reset_and_hazards.md R270 (derived there): the address of the next word after an EXEC and its ADVANCE, modulo
2^16 by the spec's own decision (92_eei_decisions.md D5; log 8). -/
def Obligations.NextWordAddressAsTabled : Prop :=
  ∀ (s : State) (w : Word) (r : Byte) (rest : List BoundaryOp) (i : Instr),
    s.pending = .exec w r :: .advance :: rest → s.fault = false → decode w = some i →
    ∃ t, StepsWithoutFault 2 s t ∧ t.pc.toNat = nextWordAddress i s ∧ t.pending = rest

/-- 40_control_flow.md R113 (derived there): a CALL at `A`, then words whose CALLs and RETs are balanced with at most 15
further calls live, then a RET, one ADVANCE after every EXEC: execution resumes at `A + 2` with `SP` as it was. The sum is
modulo 2^16 by the spec's own decision (92_eei_decisions.md D5; log 8). -/
def Obligations.CallResumesAfterBalancedBody : Prop :=
  ∀ (s : State) (c e : Word × Byte) (body : List (Word × Byte)) (rest : List BoundaryOp) (nnn : Addr),
    s.fault = false → s.pending = execAdvancePairs (c :: (body ++ [e])) ++ rest →
    decode c.1 = some (.call nnn) → decode e.1 = some .ret → callDepth 15 0 body = some 0 →
    ∃ t, StepsWithoutFault (2 * (body.length + 2)) s t ∧
      t.pc.toNat = (s.pc.toNat + 2) % 2 ^ 16 ∧ t.sp = s.sp ∧ t.pending = rest

/-- 10_state.md R31 (derived there): the seventeenth of seventeen nested CALLs writes the slot of the first, without a fault,
so that the first return address is lost (`SP` modulo 2^SPW: 92_eei_decisions.md D4; log 1). -/
def Obligations.SeventeenthCallOverwritesFirst : Prop :=
  ∀ (s : State) (calls : List (Word × Byte)) (rest : List BoundaryOp),
    s.fault = false → s.pending = execAdvancePairs calls ++ rest → calls.length = 17 →
    (∀ p ∈ calls, ∃ nnn, decode p.1 = some (.call nnn)) →
    ∃ s1 s16 t, step s = .next s1 ∧ s1.readSlot (slotIndex s1.sp) = s.pc ∧
      StepsWithoutFault 32 s s16 ∧ StepsWithoutFault 2 s16 t ∧
      t.readSlot (slotIndex s1.sp) = s16.pc ∧ t.sp = s.sp + 17

/-- 70_reset_and_hazards.md R265, R266 (92_eei_decisions.md D24): RESET and then any register writes, from any state,
leave the reset values but for the written registers, each at the value last written to it, with the EXEC and ADVANCE
pairs still to come. -/
def Obligations.BootLeavesWrittenRegisters : Prop :=
  ∀ (s : State) (writes : List (RegIdx × Byte)) (words : List (Word × Byte)) (rest : List BoundaryOp),
    s.pending = bootOrder writes words ++ rest →
    ∃ t, Host.Core.run Sys2Proof.core (writes.length + 1) s = .next t ∧
      (∀ x, t.readV x = writes.foldl (fun b p => if p.1 = x then p.2 else b) 0x00) ∧
      t.i = 0x0000 ∧ (∀ j, t.readSlot j = 0x0000) ∧ t.sp.toNat = 0 ∧ t.pc = Config.RESET_PC ∧ t.fault = false ∧
      t.pending = execAdvancePairs words ++ rest

/-! ## The reference harness -/

/-- 20_memory.md R64 (92_eei_decisions.md D12): a harness step that runs on is the block's EXEC of the fetched word and then
its ADVANCE, and the memory is as it was. -/
def Obligations.HarnessStepIsExecThenAdvance : Prop :=
  ∀ (h : Harness) (w : Word) (r : Byte) (rest : List BoundaryOp),
    h.core.fault = false → h.mem.fetchWord h.core.pc = some w → isSelfJump w h.core.pc = false → decode w ≠ none →
    ∃ h' u t, h.step r = .next (.running h') ∧ step { h.core with pending := .exec w r :: .advance :: rest } = .next u ∧
      step u = .next t ∧ h'.core.accessors = t.accessors ∧ h'.mem = h.mem

/-- 20_memory.md R65 (derived there): the state at which a run halts is the state that executing the jump to itself and
advancing would leave. -/
def Obligations.HaltStateIsWhatTheJumpLeaves : Prop :=
  ∀ (h : Harness) (w : Word) (r : Byte) (rest : List BoundaryOp),
    h.core.fault = false → h.mem.fetchWord h.core.pc = some w → isSelfJump w h.core.pc = true →
    h.step r = .next (.ended .halt h) ∧
    ∃ t, StepsWithoutFault 2 { h.core with pending := .exec w r :: .advance :: rest } t ∧
      t.accessors = h.core.accessors

/-- 20_memory.md R63 (92_eei_decisions.md D12): what is fetched, most significant byte first, and where nothing is. -/
def Obligations.FetchIsBigEndianInRange : Prop :=
  ∀ (m : Memory) (pc : Word),
    (pc.toNat > 0x0FFE → m.fetchWord pc = none) ∧
    (pc.toNat ≤ 0x0FFE → ∃ w, m.fetchWord pc = some w ∧
      w.toNat = 256 * (m.read pc.toNat).toNat + (m.read (pc.toNat + 1)).toNat)

/-- 20_memory.md R62 (92_eei_decisions.md D12): a program that fits is placed from an address upward in the order written,
every other byte is 0x00, and the memory is in its canonical form; a program of which a byte would lie outside M is not
placed (log 9, the model's choice); a run's harness is the reset block and the program placed from RESET_PC. -/
def Obligations.LoadPlacesProgram : Prop :=
  (∀ (base : Nat) (program : List Byte), base + program.length ≤ 4096 → ∃ m, Memory.place [] base program = some m ∧
    Memory.wf m = true ∧ (∀ k (hk : k < program.length), Memory.read m (base + k) = program[k]) ∧
    ∀ a, (∀ k, k < program.length → a ≠ base + k) → Memory.read m a = 0x00) ∧
  (∀ (base : Nat) (program : List Byte), program ≠ [] → 4096 < base + program.length →
    Memory.place [] base program = none) ∧
  ∀ (program : List Byte) (m : Memory), Memory.place [] Config.RESET_PC.toNat program = some m →
    Harness.load program = some ⟨State.reset, m⟩

/-- 20_memory.md R62, R65 (92_eei_decisions.md D12): from FAULT = 0 every run ends, the memory is never written, and a run
ends as FAULTED exactly when FAULT is 1 at its end. -/
def Obligations.HarnessRunEnds : Prop :=
  ∀ (h : Harness) (rnds : List Byte), h.core.fault = false →
    ∃ e h', h.run rnds = .next (.ended e h') ∧ h'.mem = h.mem ∧ (e = .faulted ↔ h'.core.fault = true)
end

