-- ==== Sys2Proof/Laws/Decode.lean ====
section
/-! SUPPORT. The decode table read digit by digit (30_encoding.md R74): a word as four hexadecimal digits, its fields, and
what each row of the table asks of the digits. -/

namespace Sys2Proof

/-- The word with the hexadecimal digits `a b c d`, the most significant first (30_encoding.md R74). -/
def digits (a b c d : BitVec 4) : Word := (a ++ b : BitVec 8) ++ (c ++ d : BitVec 8)

/-- The byte with the hexadecimal digits `c d`. -/
def byteOf (c d : BitVec 4) : Byte := c ++ d

/-- The 12-bit address with the hexadecimal digits `b c d`. -/
def addrOf (b c d : BitVec 4) : Addr := b ++ (c ++ d : BitVec 8)

theorem byteOf_toNat (c d : BitVec 4) : (byteOf c d).toNat = 16 * c.toNat + d.toNat := by
  rw [byteOf, BitVec.toNat_append, ← Nat.shiftLeft_add_eq_or_of_lt d.isLt, Nat.shiftLeft_eq]; omega

theorem addrOf_toNat (b c d : BitVec 4) : (addrOf b c d).toNat = 256 * b.toNat + 16 * c.toNat + d.toNat := by
  rw [addrOf, BitVec.toNat_append, ← Nat.shiftLeft_add_eq_or_of_lt (c ++ d).isLt, Nat.shiftLeft_eq,
    show (c ++ d).toNat = 16 * c.toNat + d.toNat from byteOf_toNat c d]
  omega

theorem digits_toNat (a b c d : BitVec 4) :
    (digits a b c d).toNat = 4096 * a.toNat + 256 * b.toNat + 16 * c.toNat + d.toNat := by
  have h4 : ∀ {m} (p : BitVec m) (q : BitVec 4), (p ++ q).toNat = 16 * p.toNat + q.toNat := fun p q => by
    rw [BitVec.toNat_append, ← Nat.shiftLeft_add_eq_or_of_lt q.isLt, Nat.shiftLeft_eq]; omega
  have h8 : ∀ (p q : BitVec 8), (p ++ q).toNat = 256 * p.toNat + q.toNat := fun p q => by
    rw [BitVec.toNat_append, ← Nat.shiftLeft_add_eq_or_of_lt q.isLt, Nat.shiftLeft_eq]; omega
  rw [digits, h8, h4, h4]; omega

/-- Every word is its four digits. -/
theorem exists_digits (w : Word) : ∃ a b c d, w = digits a b c d := by
  refine ⟨BitVec.ofNat 4 (w.toNat / 4096), BitVec.ofNat 4 (w.toNat / 256), BitVec.ofNat 4 (w.toNat / 16),
    BitVec.ofNat 4 w.toNat, BitVec.eq_of_toNat_eq ?_⟩
  have := w.isLt
  rw [digits_toNat]
  simp only [BitVec.toNat_ofNat]
  omega

theorem digits_inj {a b c d a' b' c' d' : BitVec 4} :
    digits a b c d = digits a' b' c' d' ↔ a = a' ∧ b = b' ∧ c = c' ∧ d = d' := by
  constructor
  · intro h
    have h := congrArg BitVec.toNat h
    have := a.isLt; have := b.isLt; have := c.isLt; have := d.isLt
    have := a'.isLt; have := b'.isLt; have := c'.isLt; have := d'.isLt
    rw [digits_toNat, digits_toNat] at h
    refine ⟨?_, ?_, ?_, ?_⟩ <;> apply BitVec.eq_of_toNat_eq <;> omega
  · rintro ⟨rfl, rfl, rfl, rfl⟩; rfl

/-- A mask acts on each digit by itself. -/
theorem digits_and (a b c d a' b' c' d' : BitVec 4) :
    digits a b c d &&& digits a' b' c' d' = digits (a &&& a') (b &&& b') (c &&& c') (d &&& d') := by
  exact BitVec.and_append.trans (congrArg₂ (· ++ ·) BitVec.and_append BitVec.and_append)

/-- A fixed digit of a mask keeps the word's digit. -/
theorem digit_and_F (a : BitVec 4) : a &&& 0xF#4 = a := by
  revert a; decide

/-- A row asks of each digit: where the mask's digit is 0xF, that it is the pattern's; where it is 0, nothing. -/
theorem matchesWord_digits (k : Kind) (a b c d p q r s m n o t : BitVec 4) :
    Row.matchesWord ⟨k, digits p q r s, digits m n o t⟩ (digits a b c d) =
      decide (a &&& m = p ∧ b &&& n = q ∧ c &&& o = r ∧ d &&& t = s) := by
  rw [Bool.eq_iff_iff]
  simp [Row.matchesWord, digits_and, digits_inj]

/-- The decode table with its patterns and masks written digit by digit (30_encoding.md R74). -/
theorem rows_digits : rows = [
    ⟨.RET, digits 0 0 0xE 0xE, digits 0xF 0xF 0xF 0xF⟩, ⟨.JP, digits 1 0 0 0, digits 0xF 0 0 0⟩,
    ⟨.CALL, digits 2 0 0 0, digits 0xF 0 0 0⟩, ⟨.SE_BYTE, digits 3 0 0 0, digits 0xF 0 0 0⟩,
    ⟨.SNE_BYTE, digits 4 0 0 0, digits 0xF 0 0 0⟩, ⟨.LD_BYTE, digits 6 0 0 0, digits 0xF 0 0 0⟩,
    ⟨.ADD_BYTE, digits 7 0 0 0, digits 0xF 0 0 0⟩, ⟨.LD_REG, digits 8 0 0 0, digits 0xF 0 0 0xF⟩,
    ⟨.AND_REG, digits 8 0 0 2, digits 0xF 0 0 0xF⟩, ⟨.XOR_REG, digits 8 0 0 3, digits 0xF 0 0 0xF⟩,
    ⟨.ADD_REG, digits 8 0 0 4, digits 0xF 0 0 0xF⟩, ⟨.SHL, digits 8 0 0 0xE, digits 0xF 0 0 0xF⟩,
    ⟨.LD_I, digits 0xA 0 0 0, digits 0xF 0 0 0⟩, ⟨.RND, digits 0xC 0 0 0, digits 0xF 0 0 0⟩,
    ⟨.ADD_I, digits 0xF 0 1 0xE, digits 0xF 0 0xF 0xF⟩] := by
  decide

/-- The loop over the rows, one row at a time (30_encoding.md R78). -/
theorem find_kind_cons (r : Row) (rs : List Row) (p : Row → Bool) :
    ((r :: rs).find? p).map Row.kind = if p r = true then some r.kind else (rs.find? p).map Row.kind := by
  cases h : p r <;> simp [h]

/-- The decoder by digits: the conditions of 30_encoding.md R75 to R77, in the order of the table. -/
theorem decodeKind_digits (a b c d : BitVec 4) : decodeKind (digits a b c d) =
    if a = 0 ∧ b = 0 ∧ c = 0xE ∧ d = 0xE then some .RET
    else if a = 1 then some .JP else if a = 2 then some .CALL
    else if a = 3 then some .SE_BYTE else if a = 4 then some .SNE_BYTE
    else if a = 6 then some .LD_BYTE else if a = 7 then some .ADD_BYTE
    else if a = 8 ∧ d = 0 then some .LD_REG else if a = 8 ∧ d = 2 then some .AND_REG
    else if a = 8 ∧ d = 3 then some .XOR_REG else if a = 8 ∧ d = 4 then some .ADD_REG
    else if a = 8 ∧ d = 0xE then some .SHL
    else if a = 0xA then some .LD_I else if a = 0xC then some .RND
    else if a = 0xF ∧ c = 1 ∧ d = 0xE then some .ADD_I else none := by
  have hF : ∀ p : BitVec 4, p &&& 15#4 = p := digit_and_F
  rw [decodeKind, rows_digits]
  simp only [find_kind_cons, List.find?_nil, matchesWord_digits, decide_eq_true_eq]
  simp only [BitVec.ofNat_eq_ofNat, hF, BitVec.and_zero, true_and, and_true, Option.map_none]

/-! The fields by digits (30_encoding.md R71). -/

theorem fieldX_digits (a b c d : BitVec 4) : fieldX (digits a b c d) = b := by
  apply BitVec.eq_of_toNat_eq
  have := b.isLt; have := c.isLt; have := d.isLt
  simp only [fieldX, BitVec.extractLsb'_toNat, digits_toNat, Nat.shiftRight_eq_div_pow]
  omega

theorem fieldY_digits (a b c d : BitVec 4) : fieldY (digits a b c d) = c := by
  apply BitVec.eq_of_toNat_eq
  have := c.isLt; have := d.isLt
  simp only [fieldY, BitVec.extractLsb'_toNat, digits_toNat, Nat.shiftRight_eq_div_pow]
  omega

/-- `kk` is `y` followed by `n4` (30_encoding.md R71). -/
theorem fieldKK_digits (a b c d : BitVec 4) : fieldKK (digits a b c d) = byteOf c d := by
  apply BitVec.eq_of_toNat_eq
  have := c.isLt; have := d.isLt
  simp only [fieldKK, BitVec.extractLsb'_toNat, digits_toNat, byteOf_toNat, Nat.shiftRight_eq_div_pow]
  omega

/-- `nnn` is `x` followed by `kk` (30_encoding.md R71). -/
theorem fieldNNN_digits (a b c d : BitVec 4) : fieldNNN (digits a b c d) = addrOf b c d := by
  apply BitVec.eq_of_toNat_eq
  have := b.isLt; have := c.isLt; have := d.isLt
  simp only [fieldNNN, BitVec.extractLsb'_toNat, digits_toNat, addrOf_toNat, Nat.shiftRight_eq_div_pow]
  omega

/-- The instruction of a word by its digits (30_encoding.md R75 to R78). -/
theorem decode_digits (a b c d : BitVec 4) : decode (digits a b c d) =
    if a = 0 ∧ b = 0 ∧ c = 0xE ∧ d = 0xE then some .ret
    else if a = 1 then some (.jp (addrOf b c d)) else if a = 2 then some (.call (addrOf b c d))
    else if a = 3 then some (.seByte b (byteOf c d)) else if a = 4 then some (.sneByte b (byteOf c d))
    else if a = 6 then some (.ldByte b (byteOf c d)) else if a = 7 then some (.addByte b (byteOf c d))
    else if a = 8 ∧ d = 0 then some (.ldReg b c) else if a = 8 ∧ d = 2 then some (.andReg b c)
    else if a = 8 ∧ d = 3 then some (.xorReg b c) else if a = 8 ∧ d = 4 then some (.addReg b c)
    else if a = 8 ∧ d = 0xE then some (.shl b c)
    else if a = 0xA then some (.ldI (addrOf b c d)) else if a = 0xC then some (.rnd b (byteOf c d))
    else if a = 0xF ∧ c = 1 ∧ d = 0xE then some (.addI b) else none := by
  simp only [decode, decodeKind_digits, apply_ite (Option.map (Kind.withFields (digits a b c d))), Option.map_some,
    Option.map_none, Kind.withFields, fieldX_digits, fieldY_digits, fieldKK_digits, fieldNNN_digits]

theorem ite_some_cases {p : Prop} [Decidable p] {α : Type} {x z : α} {y : Option α}
    (h : (if p then some x else y) = some z) : (p ∧ z = x) ∨ y = some z := by
  by_cases hp : p <;> simp_all

theorem ite_some_eq_none {p : Prop} [Decidable p] {α : Type} {x : α} {y : Option α} :
    (if p then some x else y) = none ↔ ¬p ∧ y = none := by
  by_cases h : p <;> simp [h]

/-- What a supported word can be: its digits and its instruction, row by row (30_encoding.md R78). -/
theorem decode_cases {a b c d : BitVec 4} {i : Instr} (h : decode (digits a b c d) = some i) :
    ((a = 0 ∧ b = 0 ∧ c = 0xE ∧ d = 0xE) ∧ i = .ret) ∨
    (a = 1 ∧ i = .jp (addrOf b c d)) ∨ (a = 2 ∧ i = .call (addrOf b c d)) ∨
    (a = 3 ∧ i = .seByte b (byteOf c d)) ∨ (a = 4 ∧ i = .sneByte b (byteOf c d)) ∨
    (a = 6 ∧ i = .ldByte b (byteOf c d)) ∨ (a = 7 ∧ i = .addByte b (byteOf c d)) ∨
    ((a = 8 ∧ d = 0) ∧ i = .ldReg b c) ∨ ((a = 8 ∧ d = 2) ∧ i = .andReg b c) ∨
    ((a = 8 ∧ d = 3) ∧ i = .xorReg b c) ∨ ((a = 8 ∧ d = 4) ∧ i = .addReg b c) ∨
    ((a = 8 ∧ d = 0xE) ∧ i = .shl b c) ∨
    (a = 0xA ∧ i = .ldI (addrOf b c d)) ∨ (a = 0xC ∧ i = .rnd b (byteOf c d)) ∨
    ((a = 0xF ∧ c = 1 ∧ d = 0xE) ∧ i = .addI b) := by
  rw [decode_digits] at h
  iterate 14 refine (ite_some_cases h).imp_right fun h => ?_
  exact (ite_some_cases h).resolve_right (by simp)

/-! The formats by digits (30_encoding.md R73). -/

/-- A byte is its two digits. -/
theorem exists_byteOf (k : Byte) : ∃ c d, k = byteOf c d := by
  refine ⟨BitVec.ofNat 4 (k.toNat / 16), BitVec.ofNat 4 k.toNat, BitVec.eq_of_toNat_eq ?_⟩
  have := k.isLt
  rw [byteOf_toNat]
  simp only [BitVec.toNat_ofNat]
  omega

/-- A 12-bit address is its three digits. -/
theorem exists_addrOf (n : Addr) : ∃ b c d, n = addrOf b c d := by
  refine ⟨BitVec.ofNat 4 (n.toNat / 256), BitVec.ofNat 4 (n.toNat / 16), BitVec.ofNat 4 n.toNat,
    BitVec.eq_of_toNat_eq ?_⟩
  have := n.isLt
  rw [addrOf_toNat]
  simp only [BitVec.toNat_ofNat]
  omega

theorem formatA_digits (op b c d : BitVec 4) : formatA op (addrOf b c d) = digits op b c d :=
  BitVec.append_assoc'

theorem formatK_digits (op x c d : BitVec 4) : formatK op x (byteOf c d) = digits op x c d := rfl

theorem formatR_digits (x y n4 : BitVec 4) : formatR x y n4 = digits 8 x y n4 := rfl

theorem formatF_digits (x : BitVec 4) : formatF x = digits 0xF x 1 0xE := rfl

end Sys2Proof
end

