-- ==== Sys2Proof/Laws/Memory.lean ====
section
/-! SUPPORT. The memory of the reference harness: every operation keeps the canonical form, a write is read back, and it
leaves every other byte as it was. -/

namespace Sys2Proof.Machine

theorem Memory.above_of_le {a a' : Nat} (h : a ≤ a') : ∀ {m : Memory}, Memory.above a' m = true → Memory.above a m = true
  | [], _ => rfl
  | c :: m, hm => by
    simp only [Memory.above, Bool.and_eq_true, decide_eq_true_eq] at hm ⊢
    exact ⟨by omega, above_of_le h hm.2⟩

theorem Memory.above_erase {a : Nat} (x : Nat) :
    ∀ {m : Memory}, Memory.above a m = true → Memory.above a (Memory.erase m x) = true
  | [], _ => rfl
  | c :: m, hm => by
    simp only [Memory.above, Bool.and_eq_true, decide_eq_true_eq] at hm
    simp only [Memory.erase]
    split
    · exact hm.2
    · simp [Memory.above, hm.1, above_erase x hm.2]

theorem Memory.above_insert {a x : Nat} (b : Byte) (hx : a < x) :
    ∀ {m : Memory}, Memory.above a m = true → Memory.above a (Memory.insert m x b) = true
  | [], _ => by simp [Memory.insert, Memory.above, hx]
  | c :: m, hm => by
    simp only [Memory.insert]
    split
    · simp only [Memory.above, Bool.and_eq_true, decide_eq_true_eq] at hm ⊢
      exact ⟨hx, hm.1, hm.2⟩
    · simp only [Memory.above, Bool.and_eq_true, decide_eq_true_eq] at hm ⊢
      exact ⟨hm.1, above_insert b hx hm.2⟩

theorem Memory.read_of_above {a x : Nat} (hx : x ≤ a) :
    ∀ {m : Memory}, Memory.above a m = true → Memory.read m x = Memory.unlisted
  | [], _ => rfl
  | c :: m, hm => by
    simp only [Memory.above, Bool.and_eq_true, decide_eq_true_eq] at hm
    have : c.1 ≠ x := by omega
    simp [Memory.read, this, read_of_above hx hm.2]

theorem Memory.wf_erase (x : Nat) : ∀ {m : Memory}, Memory.wf m = true → Memory.wf (Memory.erase m x) = true
  | [], _ => rfl
  | c :: m, hm => by
    simp only [Memory.wf, Bool.and_eq_true] at hm
    simp only [Memory.erase]
    split
    · exact hm.2
    · simp only [Memory.wf, Bool.and_eq_true]
      exact ⟨⟨hm.1.1, above_erase x hm.1.2⟩, wf_erase x hm.2⟩

/-- Taking a byte out leaves it unlisted and every other byte as it was. -/
theorem Memory.read_erase (x y : Nat) : ∀ {m : Memory}, Memory.wf m = true →
    Memory.read (Memory.erase m x) y = if x = y then Memory.unlisted else Memory.read m y
  | [], _ => by simp [Memory.erase, Memory.read]
  | c :: m, hm => by
    simp only [Memory.wf, Bool.and_eq_true] at hm
    simp only [Memory.erase]
    by_cases hcx : c.1 = x
    · rw [if_pos hcx]
      by_cases hxy : x = y
      · rw [if_pos hxy]; exact read_of_above (by omega) hm.1.2
      · have : c.1 ≠ y := by omega
        simp [Memory.read, this, hxy]
    · rw [if_neg hcx, Memory.read, read_erase x y hm.2, Memory.read]
      split
      · have : x ≠ y := by omega
        simp [this]
      · rfl

theorem Memory.wf_insert {x : Nat} {b : Byte} (hx : x < Memory.size) (hb : b ≠ Memory.unlisted) :
    ∀ {m : Memory}, Memory.wf m = true → Memory.wf (Memory.insert (Memory.erase m x) x b) = true
  | [], _ => by simp [Memory.erase, Memory.insert, Memory.wf, Memory.above, hx, hb]
  | c :: m, hm => by
    have hm' := hm
    simp only [Memory.wf, Bool.and_eq_true, decide_eq_true_eq] at hm
    simp only [Memory.erase]
    by_cases hcx : c.1 = x
    · rw [if_pos hcx]
      have ha : Memory.above x m = true := hcx ▸ hm.1.2
      cases m with
      | nil => simp [Memory.insert, Memory.wf, Memory.above, hx, hb]
      | cons d m =>
        have hd : x < d.1 := by simp only [Memory.above, Bool.and_eq_true, decide_eq_true_eq] at ha; exact ha.1
        simp only [Memory.insert, if_pos hd]
        rw [Memory.wf]
        simp only [Bool.and_eq_true, decide_eq_true_eq]
        exact ⟨⟨⟨hx, hb⟩, ha⟩, hm.2⟩
    · rw [if_neg hcx, Memory.insert]
      split
      · rename_i hlt
        rw [Memory.wf]
        simp only [Bool.and_eq_true, decide_eq_true_eq]
        refine ⟨⟨⟨hx, hb⟩, ?_⟩, ?_⟩
        · simp only [Memory.above, Bool.and_eq_true, decide_eq_true_eq]
          exact ⟨hlt, above_of_le (by omega) (above_erase x hm.1.2)⟩
        · simp only [Memory.wf, Bool.and_eq_true, decide_eq_true_eq]
          exact ⟨⟨hm.1.1, above_erase x hm.1.2⟩, wf_erase x hm.2⟩
      · simp only [Memory.wf, Bool.and_eq_true, decide_eq_true_eq]
        exact ⟨⟨hm.1.1, above_insert b (by omega) (above_erase x hm.1.2)⟩, wf_insert hx hb hm.2⟩

/-- Putting a byte in at an unlisted address gives that byte there and every other byte as it was. -/
theorem Memory.read_insert (x y : Nat) (b : Byte) : ∀ {m : Memory}, Memory.read m x = Memory.unlisted → b ≠ Memory.unlisted →
    (∀ c ∈ m, c.1 ≠ x) → Memory.read (Memory.insert m x b) y = if x = y then b else Memory.read m y
  | [], _, _, _ => by simp [Memory.insert, Memory.read]
  | c :: m, h, hb, hne => by
    have hc : c.1 ≠ x := hne c (by simp)
    rw [Memory.read, if_neg hc] at h
    simp only [Memory.insert]
    split
    · by_cases hxy : x = y <;> simp [Memory.read, hxy]
    · rw [Memory.read, read_insert x y b h hb (fun c' h' => hne c' (by simp [h'])), Memory.read]
      split
      · have : x ≠ y := by omega
        simp [this]
      · rfl

theorem Memory.erase_ne (x : Nat) : ∀ {m : Memory}, Memory.wf m = true → ∀ c ∈ Memory.erase m x, c.1 ≠ x
  | [], _ => by simp [Memory.erase]
  | c :: m, hm => by
    simp only [Memory.wf, Bool.and_eq_true] at hm
    simp only [Memory.erase]
    split
    · rename_i hcx
      intro d hd hdx
      have hab : ∀ {m : Memory}, Memory.above c.1 m = true → ∀ d ∈ m, c.1 < d.1 := by
        intro m
        induction m with
        | nil => simp
        | cons e m ih =>
          intro he d hd
          simp only [Memory.above, Bool.and_eq_true, decide_eq_true_eq] at he
          rcases List.mem_cons.1 hd with rfl | h
          · exact he.1
          · exact ih he.2 d h
      have := hab hm.1.2 d hd
      omega
    · rename_i hcx
      intro d hd
      rcases List.mem_cons.1 hd with rfl | h
      · exact hcx
      · exact erase_ne x hm.2 d h

/-- A write keeps the canonical form. -/
theorem Memory.wf_write {m m' : Memory} {a : Nat} {b : Byte} (hm : Memory.wf m = true)
    (h : Memory.write m a b = some m') : Memory.wf m' = true := by
  simp only [Memory.write] at h
  split at h
  · rename_i ha
    cases h
    split
    · exact wf_erase a hm
    · rename_i hb
      exact wf_insert ha hb hm
  · cases h

/-- A read after a write: the written byte at its address, every other byte as it was. -/
theorem Memory.read_write {m m' : Memory} {a : Nat} {b : Byte} (hm : Memory.wf m = true)
    (h : Memory.write m a b = some m') (y : Nat) : Memory.read m' y = if a = y then b else Memory.read m y := by
  simp only [Memory.write] at h
  split at h
  · cases h
    split
    · rename_i hb
      rw [read_erase a y hm, hb]
    · rename_i hb
      rw [read_insert a y b (by rw [read_erase a a hm, if_pos rfl]) hb (erase_ne a hm), read_erase a y hm]
      split <;> rfl
  · cases h

/-- An address outside M does not exist (20_memory.md R62). -/
theorem Memory.write_outside (m : Memory) {a : Nat} (b : Byte) (h : Memory.size ≤ a) : Memory.write m a b = none := by
  simp [Memory.write, Nat.not_lt.2 h]

end Sys2Proof.Machine
end

