-- ==== Sys2Proof/Laws/State.lean ====
section
/-! SUPPORT. One lemma per field per update of State, true by definition. -/

namespace Sys2Proof.Machine

section
variable (s : State)

@[simp] theorem State.writeV_v (x : RegIdx) (b : Byte) : (s.writeV x b).v = s.v.set x.toNat b := rfl
@[simp] theorem State.writeV_i (x : RegIdx) (b : Byte) : (s.writeV x b).i = s.i := rfl
@[simp] theorem State.writeV_stack (x : RegIdx) (b : Byte) : (s.writeV x b).stack = s.stack := rfl
@[simp] theorem State.writeV_sp (x : RegIdx) (b : Byte) : (s.writeV x b).sp = s.sp := rfl
@[simp] theorem State.writeV_pc (x : RegIdx) (b : Byte) : (s.writeV x b).pc = s.pc := rfl
@[simp] theorem State.writeV_fault (x : RegIdx) (b : Byte) : (s.writeV x b).fault = s.fault := rfl
@[simp] theorem State.writeV_faultInfo (x : RegIdx) (b : Byte) : (s.writeV x b).faultInfo = s.faultInfo := rfl
@[simp] theorem State.writeV_rnd (x : RegIdx) (b : Byte) : (s.writeV x b).rnd = s.rnd := rfl
@[simp] theorem State.writeV_pending (x : RegIdx) (b : Byte) : (s.writeV x b).pending = s.pending := rfl

@[simp] theorem State.writeSlot_v (j : SlotIdx) (a : Word) : (s.writeSlot j a).v = s.v := rfl
@[simp] theorem State.writeSlot_i (j : SlotIdx) (a : Word) : (s.writeSlot j a).i = s.i := rfl
@[simp] theorem State.writeSlot_stack (j : SlotIdx) (a : Word) : (s.writeSlot j a).stack = s.stack.set j.toNat a := rfl
@[simp] theorem State.writeSlot_sp (j : SlotIdx) (a : Word) : (s.writeSlot j a).sp = s.sp := rfl
@[simp] theorem State.writeSlot_pc (j : SlotIdx) (a : Word) : (s.writeSlot j a).pc = s.pc := rfl
@[simp] theorem State.writeSlot_fault (j : SlotIdx) (a : Word) : (s.writeSlot j a).fault = s.fault := rfl
@[simp] theorem State.writeSlot_faultInfo (j : SlotIdx) (a : Word) : (s.writeSlot j a).faultInfo = s.faultInfo := rfl
@[simp] theorem State.writeSlot_rnd (j : SlotIdx) (a : Word) : (s.writeSlot j a).rnd = s.rnd := rfl
@[simp] theorem State.writeSlot_pending (j : SlotIdx) (a : Word) : (s.writeSlot j a).pending = s.pending := rfl

@[simp] theorem State.setI_v (a : Word) : (s.setI a).v = s.v := rfl
@[simp] theorem State.setI_i (a : Word) : (s.setI a).i = a := rfl
@[simp] theorem State.setI_stack (a : Word) : (s.setI a).stack = s.stack := rfl
@[simp] theorem State.setI_sp (a : Word) : (s.setI a).sp = s.sp := rfl
@[simp] theorem State.setI_pc (a : Word) : (s.setI a).pc = s.pc := rfl
@[simp] theorem State.setI_fault (a : Word) : (s.setI a).fault = s.fault := rfl
@[simp] theorem State.setI_faultInfo (a : Word) : (s.setI a).faultInfo = s.faultInfo := rfl
@[simp] theorem State.setI_rnd (a : Word) : (s.setI a).rnd = s.rnd := rfl
@[simp] theorem State.setI_pending (a : Word) : (s.setI a).pending = s.pending := rfl

@[simp] theorem State.setSp_v (p : BitVec Config.SPW) : (s.setSp p).v = s.v := rfl
@[simp] theorem State.setSp_i (p : BitVec Config.SPW) : (s.setSp p).i = s.i := rfl
@[simp] theorem State.setSp_stack (p : BitVec Config.SPW) : (s.setSp p).stack = s.stack := rfl
@[simp] theorem State.setSp_sp (p : BitVec Config.SPW) : (s.setSp p).sp = p := rfl
@[simp] theorem State.setSp_pc (p : BitVec Config.SPW) : (s.setSp p).pc = s.pc := rfl
@[simp] theorem State.setSp_fault (p : BitVec Config.SPW) : (s.setSp p).fault = s.fault := rfl
@[simp] theorem State.setSp_faultInfo (p : BitVec Config.SPW) : (s.setSp p).faultInfo = s.faultInfo := rfl
@[simp] theorem State.setSp_rnd (p : BitVec Config.SPW) : (s.setSp p).rnd = s.rnd := rfl
@[simp] theorem State.setSp_pending (p : BitVec Config.SPW) : (s.setSp p).pending = s.pending := rfl

@[simp] theorem State.setPc_v (a : Word) : (s.setPc a).v = s.v := rfl
@[simp] theorem State.setPc_i (a : Word) : (s.setPc a).i = s.i := rfl
@[simp] theorem State.setPc_stack (a : Word) : (s.setPc a).stack = s.stack := rfl
@[simp] theorem State.setPc_sp (a : Word) : (s.setPc a).sp = s.sp := rfl
@[simp] theorem State.setPc_pc (a : Word) : (s.setPc a).pc = a := rfl
@[simp] theorem State.setPc_fault (a : Word) : (s.setPc a).fault = s.fault := rfl
@[simp] theorem State.setPc_faultInfo (a : Word) : (s.setPc a).faultInfo = s.faultInfo := rfl
@[simp] theorem State.setPc_rnd (a : Word) : (s.setPc a).rnd = s.rnd := rfl
@[simp] theorem State.setPc_pending (a : Word) : (s.setPc a).pending = s.pending := rfl

@[simp] theorem State.pcPlusTwo_v : (s.pcPlusTwo).v = s.v := rfl
@[simp] theorem State.pcPlusTwo_i : (s.pcPlusTwo).i = s.i := rfl
@[simp] theorem State.pcPlusTwo_stack : (s.pcPlusTwo).stack = s.stack := rfl
@[simp] theorem State.pcPlusTwo_sp : (s.pcPlusTwo).sp = s.sp := rfl
@[simp] theorem State.pcPlusTwo_pc : (s.pcPlusTwo).pc = s.pc + 2 := rfl
@[simp] theorem State.pcPlusTwo_fault : (s.pcPlusTwo).fault = s.fault := rfl
@[simp] theorem State.pcPlusTwo_faultInfo : (s.pcPlusTwo).faultInfo = s.faultInfo := rfl
@[simp] theorem State.pcPlusTwo_rnd : (s.pcPlusTwo).rnd = s.rnd := rfl
@[simp] theorem State.pcPlusTwo_pending : (s.pcPlusTwo).pending = s.pending := rfl

@[simp] theorem State.raiseFault_v (f : Fault) : (s.raiseFault f).v = s.v := rfl
@[simp] theorem State.raiseFault_i (f : Fault) : (s.raiseFault f).i = s.i := rfl
@[simp] theorem State.raiseFault_stack (f : Fault) : (s.raiseFault f).stack = s.stack := rfl
@[simp] theorem State.raiseFault_sp (f : Fault) : (s.raiseFault f).sp = s.sp := rfl
@[simp] theorem State.raiseFault_pc (f : Fault) : (s.raiseFault f).pc = s.pc := rfl
@[simp] theorem State.raiseFault_fault (f : Fault) : (s.raiseFault f).fault = true := rfl
@[simp] theorem State.raiseFault_faultInfo (f : Fault) : (s.raiseFault f).faultInfo = some f := rfl
@[simp] theorem State.raiseFault_rnd (f : Fault) : (s.raiseFault f).rnd = s.rnd := rfl
@[simp] theorem State.raiseFault_pending (f : Fault) : (s.raiseFault f).pending = s.pending := rfl

@[simp] theorem State.latchRnd_v (r : Byte) : (s.latchRnd r).v = s.v := rfl
@[simp] theorem State.latchRnd_i (r : Byte) : (s.latchRnd r).i = s.i := rfl
@[simp] theorem State.latchRnd_stack (r : Byte) : (s.latchRnd r).stack = s.stack := rfl
@[simp] theorem State.latchRnd_sp (r : Byte) : (s.latchRnd r).sp = s.sp := rfl
@[simp] theorem State.latchRnd_pc (r : Byte) : (s.latchRnd r).pc = s.pc := rfl
@[simp] theorem State.latchRnd_fault (r : Byte) : (s.latchRnd r).fault = s.fault := rfl
@[simp] theorem State.latchRnd_faultInfo (r : Byte) : (s.latchRnd r).faultInfo = s.faultInfo := rfl
@[simp] theorem State.latchRnd_rnd (r : Byte) : (s.latchRnd r).rnd = r := rfl
@[simp] theorem State.latchRnd_pending (r : Byte) : (s.latchRnd r).pending = s.pending := rfl

@[simp] theorem State.withPending_v (ops : List BoundaryOp) : (s.withPending ops).v = s.v := rfl
@[simp] theorem State.withPending_i (ops : List BoundaryOp) : (s.withPending ops).i = s.i := rfl
@[simp] theorem State.withPending_stack (ops : List BoundaryOp) : (s.withPending ops).stack = s.stack := rfl
@[simp] theorem State.withPending_sp (ops : List BoundaryOp) : (s.withPending ops).sp = s.sp := rfl
@[simp] theorem State.withPending_pc (ops : List BoundaryOp) : (s.withPending ops).pc = s.pc := rfl
@[simp] theorem State.withPending_fault (ops : List BoundaryOp) : (s.withPending ops).fault = s.fault := rfl
@[simp] theorem State.withPending_faultInfo (ops : List BoundaryOp) : (s.withPending ops).faultInfo = s.faultInfo := rfl
@[simp] theorem State.withPending_rnd (ops : List BoundaryOp) : (s.withPending ops).rnd = s.rnd := rfl
@[simp] theorem State.withPending_pending (ops : List BoundaryOp) : (s.withPending ops).pending = ops := rfl

@[simp] theorem State.resetBlock_v : (s.resetBlock).v = State.reset.v := rfl
@[simp] theorem State.resetBlock_i : (s.resetBlock).i = State.reset.i := rfl
@[simp] theorem State.resetBlock_stack : (s.resetBlock).stack = State.reset.stack := rfl
@[simp] theorem State.resetBlock_sp : (s.resetBlock).sp = State.reset.sp := rfl
@[simp] theorem State.resetBlock_pc : (s.resetBlock).pc = State.reset.pc := rfl
@[simp] theorem State.resetBlock_fault : (s.resetBlock).fault = false := rfl
@[simp] theorem State.resetBlock_faultInfo : (s.resetBlock).faultInfo = none := rfl
@[simp] theorem State.resetBlock_rnd : (s.resetBlock).rnd = s.rnd := rfl
@[simp] theorem State.resetBlock_pending : (s.resetBlock).pending = s.pending := rfl

/-! What is read of a register or a slot depends on `v` or `stack` alone. -/

@[simp] theorem State.readSlot_writeV (x : RegIdx) (b : Byte) (k : SlotIdx) : (s.writeV x b).readSlot k = s.readSlot k := rfl
@[simp] theorem State.readV_writeSlot (j : SlotIdx) (a : Word) (y : RegIdx) : (s.writeSlot j a).readV y = s.readV y := rfl
@[simp] theorem State.readV_setI (a : Word) (y : RegIdx) : (s.setI a).readV y = s.readV y := rfl
@[simp] theorem State.readSlot_setI (a : Word) (k : SlotIdx) : (s.setI a).readSlot k = s.readSlot k := rfl
@[simp] theorem State.readV_setSp (p : BitVec Config.SPW) (y : RegIdx) : (s.setSp p).readV y = s.readV y := rfl
@[simp] theorem State.readSlot_setSp (p : BitVec Config.SPW) (k : SlotIdx) : (s.setSp p).readSlot k = s.readSlot k := rfl
@[simp] theorem State.readV_setPc (a : Word) (y : RegIdx) : (s.setPc a).readV y = s.readV y := rfl
@[simp] theorem State.readSlot_setPc (a : Word) (k : SlotIdx) : (s.setPc a).readSlot k = s.readSlot k := rfl
@[simp] theorem State.readV_pcPlusTwo (y : RegIdx) : (s.pcPlusTwo).readV y = s.readV y := rfl
@[simp] theorem State.readSlot_pcPlusTwo (k : SlotIdx) : (s.pcPlusTwo).readSlot k = s.readSlot k := rfl
@[simp] theorem State.readV_raiseFault (f : Fault) (y : RegIdx) : (s.raiseFault f).readV y = s.readV y := rfl
@[simp] theorem State.readSlot_raiseFault (f : Fault) (k : SlotIdx) : (s.raiseFault f).readSlot k = s.readSlot k := rfl
@[simp] theorem State.readV_latchRnd (r : Byte) (y : RegIdx) : (s.latchRnd r).readV y = s.readV y := rfl
@[simp] theorem State.readSlot_latchRnd (r : Byte) (k : SlotIdx) : (s.latchRnd r).readSlot k = s.readSlot k := rfl
@[simp] theorem State.readV_withPending (ops : List BoundaryOp) (y : RegIdx) : (s.withPending ops).readV y = s.readV y := rfl
@[simp] theorem State.readSlot_withPending (ops : List BoundaryOp) (k : SlotIdx) : (s.withPending ops).readSlot k = s.readSlot k := rfl

/-! The reset state (10_state.md R38). -/

@[simp] theorem State.reset_i : State.reset.i = 0 := rfl
@[simp] theorem State.reset_sp : State.reset.sp = 0 := rfl
@[simp] theorem State.reset_pc : State.reset.pc = Config.RESET_PC := rfl
@[simp] theorem State.reset_fault : State.reset.fault = false := rfl
@[simp] theorem State.reset_faultInfo : State.reset.faultInfo = none := rfl
@[simp] theorem State.reset_pending : State.reset.pending = [] := rfl

end

end Sys2Proof.Machine
end

