-- ==== Sys2Proof/Laws/Ops.lean ====
section
/-! SUPPORT. What each shared operation does, said once: register and slot reads after writes, the slot index under the
changes of `SP`, the sums and flags as numbers. -/

namespace Sys2Proof.Machine

/-- A register read after a register write (10_state.md R21: no aliases). -/
theorem State.readV_writeV (s : State) (x y : RegIdx) (b : Byte) :
    (s.writeV x b).readV y = if x = y then b else s.readV y := by
  simp [State.readV, State.writeV, Vector.getElem_set, ← BitVec.toNat_inj]

@[simp] theorem State.readV_writeV_same (s : State) (x : RegIdx) (b : Byte) : (s.writeV x b).readV x = b := by
  simp [State.readV_writeV]

theorem State.readV_writeV_other (s : State) {x y : RegIdx} (b : Byte) (h : x ≠ y) :
    (s.writeV x b).readV y = s.readV y := by
  simp [State.readV_writeV, h]

/-- Two states with the same registers, read one by one, have the same register file. -/
theorem State.v_ext {s t : State} (h : ∀ x, t.readV x = s.readV x) : t.v = s.v := by
  refine Vector.ext fun k hk => ?_
  simpa [State.readV, Nat.mod_eq_of_lt hk] using h (BitVec.ofNat 4 k)

/-- Two states that agree on every register and on everything else are equal. -/
theorem State.eq_of_readV {s t : State} (hv : ∀ x, t.readV x = s.readV x) (h : { t with v := s.v } = s) : t = s := by
  rw [← h, ← State.v_ext hv]

/-- A slot read after a slot write (10_state.md R29). -/
theorem State.readSlot_writeSlot (s : State) (j k : SlotIdx) (a : Word) :
    (s.writeSlot j a).readSlot k = if j = k then a else s.readSlot k := by
  simp [State.readSlot, State.writeSlot, Vector.getElem_set, ← BitVec.toNat_inj]

@[simp] theorem State.readSlot_writeSlot_same (s : State) (j : SlotIdx) (a : Word) :
    (s.writeSlot j a).readSlot j = a := by
  simp [State.readSlot_writeSlot]

@[simp] theorem State.reset_readV (x : RegIdx) : State.reset.readV x = 0 := by
  simp [State.readV, State.reset]

@[simp] theorem State.reset_readSlot (j : SlotIdx) : State.reset.readSlot j = 0 := by
  simp [State.readSlot, State.reset]

/-- Writing the same register twice: the second write is what stays. -/
@[simp] theorem State.writeV_writeV_same (s : State) (x : RegIdx) (a b : Byte) :
    (s.writeV x a).writeV x b = s.writeV x b := by
  simp [State.writeV]

/-- Writes of different registers commute. -/
theorem State.writeV_comm (s : State) {x y : RegIdx} (a b : Byte) (h : x ≠ y) :
    (s.writeV x a).writeV y b = (s.writeV y b).writeV x a := by
  have h' : x.toNat ≠ y.toNat := fun e => h (BitVec.eq_of_toNat_eq e)
  simp only [State.writeV, State.mk.injEq, and_true]
  exact Vector.set_comm _ _ h'

/-- The slot index is `SP` modulo 16 (10_state.md R29). -/
@[simp] theorem slotIndex_toNat (sp : BitVec Config.SPW) : (slotIndex sp).toNat = sp.toNat % 16 := by
  simp [slotIndex]

theorem sixteen_dvd_spw : 16 ∣ 2 ^ Config.SPW := ⟨2 ^ Config.spExtraBits, by rw [Config.SPW, Nat.pow_add]; omega⟩

/-- The slot index commutes with sums on `SP`, whatever the width (10_state.md R30). -/
@[simp] theorem slotIndex_add (a b : BitVec Config.SPW) : slotIndex (a + b) = slotIndex a + slotIndex b := by
  apply BitVec.eq_of_toNat_eq
  simp [Nat.mod_mod_of_dvd _ sixteen_dvd_spw, Nat.add_mod]

@[simp] theorem slotIndex_ofNat (n : Nat) : slotIndex (BitVec.ofNat _ n) = BitVec.ofNat 4 n := by
  apply BitVec.eq_of_toNat_eq
  simp [Nat.mod_mod_of_dvd _ sixteen_dvd_spw]

@[simp] theorem zextAddr_toNat (nnn : Addr) : (zextAddr nnn).toNat = nnn.toNat := by
  have := nnn.isLt
  simp only [zextAddr, BitVec.toNat_setWidth]
  omega

@[simp] theorem zextByte_toNat (b : Byte) : (zextByte b).toNat = b.toNat := by
  have := b.isLt
  simp only [zextByte, BitVec.toNat_setWidth]
  omega

@[simp] theorem sumByte_toNat (a b : Byte) : (sumByte a b).toNat = (a.toNat + b.toNat) % 256 := by
  simp [sumByte, exactSum]

theorem carryOut_eq (a b : Byte) : carryOut a b = if a.toNat + b.toNat > 255 then 1 else 0 := rfl

theorem shiftedOut_eq (b : Byte) : shiftedOut b = if b.toNat ≥ 128 then 1 else 0 := by
  revert b; decide

@[simp] theorem shiftedLeft_toNat (b : Byte) : (shiftedLeft b).toNat = 2 * b.toNat % 256 := by
  simp [shiftedLeft, Nat.shiftLeft_eq, Nat.mul_comm]

/-- Taking the fault changes FAULT alone of what the accessors show (60_exceptions.md R231, R235). -/
theorem State.raiseFault_accessors (s : State) (f : Fault) :
    (s.raiseFault f).accessors = { s.accessors with fault := true } := rfl

/-- RESET gives every accessor its reset value, whatever the state (70_reset_and_hazards.md R260). -/
theorem State.resetBlock_accessors (s : State) : s.resetBlock.accessors = State.reset.accessors := rfl

@[simp] theorem State.accessors_withPending (s : State) (ops : List BoundaryOp) :
    (s.withPending ops).accessors = s.accessors := rfl

@[simp] theorem State.accessors_latchRnd (s : State) (r : Byte) : (s.latchRnd r).accessors = s.accessors := rfl

end Sys2Proof.Machine
end

