-- ==== Sys2Proof/WellFormed.lean ====
section
/-! DEFINITION. Assembler lines (30_encoding.md R83, R84) and the checks that make one well formed. The fields of
`Instr` are exactly as wide as the encoding's, so every `Instr` is well formed by its type; the numbers of an assembler
line are not, and a line that fails a check is not assembled (log 12). -/

namespace Sys2Proof

/-- An assembler line in the source's syntax (30_encoding.md R83), its operands the numbers as written. -/
inductive Asm where
  | ret
  | jp (addr : Nat)
  | call (addr : Nat)
  | seByte (x byte : Nat)
  | sneByte (x byte : Nat)
  | ldByte (x byte : Nat)
  | addByte (x byte : Nat)
  | ldReg (x y : Nat)
  | andReg (x y : Nat)
  | xorReg (x y : Nat)
  | addReg (x y : Nat)
  /-- The second operand may be left out. -/
  | shl (x : Nat) (y : Option Nat)
  | ldI (addr : Nat)
  | rnd (x byte : Nat)
  | addI (x : Nat)
  deriving DecidableEq, Repr

/-- A register is `V0`..`VF` (30_encoding.md R83). -/
def Asm.regOk (n : Nat) : Bool := decide (n < 2 ^ 4)

/-- `byte` has at most 8 bits (30_encoding.md R83). -/
def Asm.byteOk (n : Nat) : Bool := decide (n < 2 ^ 8)

/-- `addr` has at most 12 bits (30_encoding.md R83). -/
def Asm.addrOk (n : Nat) : Bool := decide (n < 2 ^ 12)

/-- Every operand of the line fits its field. -/
def Asm.wellFormed : Asm → Bool
  | .ret => true
  | .jp a | .call a | .ldI a => addrOk a
  | .seByte x b | .sneByte x b | .ldByte x b | .addByte x b | .rnd x b => regOk x && byteOk b
  | .ldReg x y | .andReg x y | .xorReg x y | .addReg x y => regOk x && regOk y
  | .shl x none => regOk x
  | .shl x (some y) => regOk x && regOk y
  | .addI x => regOk x

/-- The instruction of a line whose operands fit: `SHL Vx` assembles with `y = 0` (30_encoding.md R83). -/
def Asm.toInstr : Asm → Instr
  | .ret => .ret
  | .jp a => .jp (BitVec.ofNat 12 a)
  | .call a => .call (BitVec.ofNat 12 a)
  | .seByte x b => .seByte (BitVec.ofNat 4 x) (BitVec.ofNat 8 b)
  | .sneByte x b => .sneByte (BitVec.ofNat 4 x) (BitVec.ofNat 8 b)
  | .ldByte x b => .ldByte (BitVec.ofNat 4 x) (BitVec.ofNat 8 b)
  | .addByte x b => .addByte (BitVec.ofNat 4 x) (BitVec.ofNat 8 b)
  | .ldReg x y => .ldReg (BitVec.ofNat 4 x) (BitVec.ofNat 4 y)
  | .andReg x y => .andReg (BitVec.ofNat 4 x) (BitVec.ofNat 4 y)
  | .xorReg x y => .xorReg (BitVec.ofNat 4 x) (BitVec.ofNat 4 y)
  | .addReg x y => .addReg (BitVec.ofNat 4 x) (BitVec.ofNat 4 y)
  | .shl x y => .shl (BitVec.ofNat 4 x) (BitVec.ofNat 4 (y.getD 0))
  | .ldI a => .ldI (BitVec.ofNat 12 a)
  | .rnd x b => .rnd (BitVec.ofNat 4 x) (BitVec.ofNat 8 b)
  | .addI x => .addI (BitVec.ofNat 4 x)

/-- Assembling a line: refused when an operand does not fit its field. -/
def Asm.assemble (a : Asm) : Option Instr := if a.wellFormed then some a.toInstr else none

/-- The line that assembles to an instruction, every operand written out. -/
def Instr.toAsm : Instr → Asm
  | .ret => .ret
  | .jp nnn => .jp nnn.toNat
  | .call nnn => .call nnn.toNat
  | .seByte x kk => .seByte x.toNat kk.toNat
  | .sneByte x kk => .sneByte x.toNat kk.toNat
  | .ldByte x kk => .ldByte x.toNat kk.toNat
  | .addByte x kk => .addByte x.toNat kk.toNat
  | .ldReg x y => .ldReg x.toNat y.toNat
  | .andReg x y => .andReg x.toNat y.toNat
  | .xorReg x y => .xorReg x.toNat y.toNat
  | .addReg x y => .addReg x.toNat y.toNat
  | .shl x y => .shl x.toNat (some y.toNat)
  | .ldI nnn => .ldI nnn.toNat
  | .rnd x kk => .rnd x.toNat kk.toNat
  | .addI x => .addI x.toNat

/-- The lowest hexadecimal digit of a number, a capital letter above 9. -/
def Asm.hexDigit (n : Nat) : Char :=
  if n % 16 < 10 then Char.ofNat (48 + n % 16) else Char.ofNat (55 + n % 16)

/-- A register as the listings write it: `V` and its hexadecimal index (30_encoding.md R83). -/
def Asm.regText (n : Nat) : List Char := ['V', hexDigit n]

/-- A byte as the listings write it: `0x` and two digits (log 12). -/
def Asm.byteText (n : Nat) : List Char := ['0', 'x', hexDigit (n / 16), hexDigit n]

/-- An address as the listings write it: `0x` and three digits (log 12). -/
def Asm.addrText (n : Nat) : List Char :=
  ['0', 'x', hexDigit (n / 256), hexDigit (n / 16), hexDigit n]

/-- The text of a line in the syntax of 30_encoding.md R83, such as `LD VA, 0xFC`. -/
def Asm.render : Asm → List Char
  | .ret => "RET".toList
  | .jp a => "JP ".toList ++ addrText a
  | .call a => "CALL ".toList ++ addrText a
  | .seByte x b => "SE ".toList ++ regText x ++ ", ".toList ++ byteText b
  | .sneByte x b => "SNE ".toList ++ regText x ++ ", ".toList ++ byteText b
  | .ldByte x b => "LD ".toList ++ regText x ++ ", ".toList ++ byteText b
  | .addByte x b => "ADD ".toList ++ regText x ++ ", ".toList ++ byteText b
  | .ldReg x y => "LD ".toList ++ regText x ++ ", ".toList ++ regText y
  | .andReg x y => "AND ".toList ++ regText x ++ ", ".toList ++ regText y
  | .xorReg x y => "XOR ".toList ++ regText x ++ ", ".toList ++ regText y
  | .addReg x y => "ADD ".toList ++ regText x ++ ", ".toList ++ regText y
  | .shl x none => "SHL ".toList ++ regText x
  | .shl x (some y) => "SHL ".toList ++ regText x ++ ", ".toList ++ regText y
  | .ldI a => "LD I, ".toList ++ addrText a
  | .rnd x b => "RND ".toList ++ regText x ++ ", ".toList ++ byteText b
  | .addI x => "ADD I, ".toList ++ regText x

end Sys2Proof
end

