-- ==== Sys2Proof/Laws/PerInstr.lean ====
section
/-! SUPPORT. Statements about every instruction as syntax, one lemma per constructor: its word matches its own row of the
decode table and no bit under the mask depends on an operand (30_encoding.md R78), and the assembler line written from it
is well formed and gives it back (30_encoding.md R83). -/

namespace Sys2Proof.Laws.EncodesInItsRow

/-- The instruction's row is in the table and its word matches it (30_encoding.md R78). -/
def Statement (i : Instr) : Prop := i.row ∈ rows ∧ encode i &&& i.row.mask = i.row.pattern

theorem of_digits {k : Kind} {p m : Word} (hr : (⟨k, p, m⟩ : Row) ∈ rows) {w : Word} (a b c d pa pb pc pd ma mb mc md : BitVec 4)
    (hw : w = digits a b c d) (hp : p = digits pa pb pc pd) (hm : m = digits ma mb mc md)
    (h : a &&& ma = pa ∧ b &&& mb = pb ∧ c &&& mc = pc ∧ d &&& md = pd) :
    (⟨k, p, m⟩ : Row) ∈ rows ∧ w &&& m = p := by
  refine ⟨hr, ?_⟩
  subst hw hp hm
  rw [digits_and, digits_inj]
  exact h

theorem formatA_row {k : Kind} (op : BitVec 4) (nnn : Addr) (hr : (⟨k, digits op 0 0 0, 0xF000⟩ : Row) ∈ rows) :
    (⟨k, digits op 0 0 0, 0xF000⟩ : Row) ∈ rows ∧ formatA op nnn &&& 0xF000 = digits op 0 0 0 := by
  obtain ⟨b, c, d, rfl⟩ := exists_addrOf nnn
  exact of_digits hr op b c d op 0 0 0 0xF 0 0 0 (formatA_digits op b c d) rfl rfl (by simp [digit_and_F op])

theorem formatK_row {k : Kind} (op x : BitVec 4) (kk : Byte) (hr : (⟨k, digits op 0 0 0, 0xF000⟩ : Row) ∈ rows) :
    (⟨k, digits op 0 0 0, 0xF000⟩ : Row) ∈ rows ∧ formatK op x kk &&& 0xF000 = digits op 0 0 0 := by
  obtain ⟨c, d, rfl⟩ := exists_byteOf kk
  exact of_digits hr op x c d op 0 0 0 0xF 0 0 0 rfl rfl rfl (by simp [digit_and_F op])

theorem formatR_row {k : Kind} (x y n4 : BitVec 4) (hr : (⟨k, digits 8 0 0 n4, 0xF00F⟩ : Row) ∈ rows) :
    (⟨k, digits 8 0 0 n4, 0xF00F⟩ : Row) ∈ rows ∧ formatR x y n4 &&& 0xF00F = digits 8 0 0 n4 :=
  of_digits hr 8 x y n4 8 0 0 n4 0xF 0 0 0xF rfl rfl rfl (by simp [digit_and_F n4])

/-- Every instruction's row is one of the table's fifteen. -/
theorem row_mem (i : Instr) : i.row ∈ rows := by cases i <;> simp [Instr.row, rows]

theorem ret : Statement .ret := And.intro (by decide) (by decide)
theorem jp (nnn : Addr) : Statement (.jp nnn) := formatA_row 1 nnn (row_mem (.jp nnn))
theorem call (nnn : Addr) : Statement (.call nnn) := formatA_row 2 nnn (row_mem (.call nnn))
theorem seByte (x : RegIdx) (kk : Byte) : Statement (.seByte x kk) := formatK_row 3 x kk (row_mem (.seByte x kk))
theorem sneByte (x : RegIdx) (kk : Byte) : Statement (.sneByte x kk) := formatK_row 4 x kk (row_mem (.sneByte x kk))
theorem ldByte (x : RegIdx) (kk : Byte) : Statement (.ldByte x kk) := formatK_row 6 x kk (row_mem (.ldByte x kk))
theorem addByte (x : RegIdx) (kk : Byte) : Statement (.addByte x kk) := formatK_row 7 x kk (row_mem (.addByte x kk))
theorem ldReg (x y : RegIdx) : Statement (.ldReg x y) := formatR_row x y 0 (row_mem (.ldReg x y))
theorem andReg (x y : RegIdx) : Statement (.andReg x y) := formatR_row x y 2 (row_mem (.andReg x y))
theorem xorReg (x y : RegIdx) : Statement (.xorReg x y) := formatR_row x y 3 (row_mem (.xorReg x y))
theorem addReg (x y : RegIdx) : Statement (.addReg x y) := formatR_row x y 4 (row_mem (.addReg x y))
theorem shl (x y : RegIdx) : Statement (.shl x y) := formatR_row x y 0xE (row_mem (.shl x y))
theorem ldI (nnn : Addr) : Statement (.ldI nnn) := formatA_row 0xA nnn (row_mem (.ldI nnn))
theorem rnd (x : RegIdx) (kk : Byte) : Statement (.rnd x kk) := formatK_row 0xC x kk (row_mem (.rnd x kk))
theorem addI (x : RegIdx) : Statement (.addI x) :=
  of_digits (row_mem (.addI x)) 0xF x 1 0xE 0xF 0 1 0xE 0xF 0 0xF 0xF rfl rfl rfl (by simp)

end Sys2Proof.Laws.EncodesInItsRow

namespace Sys2Proof.Laws.AssemblesBack

/-- The line written from the instruction is well formed and assembles to it (30_encoding.md R83). -/
def Statement (i : Instr) : Prop := i.toAsm.wellFormed = true ∧ i.toAsm.assemble = some i

theorem regOk_toNat (x : RegIdx) : Asm.regOk x.toNat = true := by simp [Asm.regOk, x.isLt]
theorem byteOk_toNat (b : Byte) : Asm.byteOk b.toNat = true := by simp [Asm.byteOk, b.isLt]
theorem addrOk_toNat (a : Addr) : Asm.addrOk a.toNat = true := by simp [Asm.addrOk, a.isLt]

/-- The operands of the line fit their fields. -/
theorem toAsm_wellFormed (i : Instr) : i.toAsm.wellFormed = true := by
  cases i <;> simp [Instr.toAsm, Asm.wellFormed, regOk_toNat, byteOk_toNat, addrOk_toNat]

/-- The instruction of the line is the one it was written from. -/
theorem toInstr_toAsm (i : Instr) : i.toAsm.toInstr = i := by cases i <;> simp [Instr.toAsm, Asm.toInstr]

theorem of_line (i : Instr) : Statement i :=
  ⟨toAsm_wellFormed i, (if_pos (toAsm_wellFormed i)).trans (congrArg some (toInstr_toAsm i))⟩

theorem ret : Statement .ret := of_line _
theorem jp (nnn : Addr) : Statement (.jp nnn) := of_line _
theorem call (nnn : Addr) : Statement (.call nnn) := of_line _
theorem seByte (x : RegIdx) (kk : Byte) : Statement (.seByte x kk) := of_line _
theorem sneByte (x : RegIdx) (kk : Byte) : Statement (.sneByte x kk) := of_line _
theorem ldByte (x : RegIdx) (kk : Byte) : Statement (.ldByte x kk) := of_line _
theorem addByte (x : RegIdx) (kk : Byte) : Statement (.addByte x kk) := of_line _
theorem ldReg (x y : RegIdx) : Statement (.ldReg x y) := of_line _
theorem andReg (x y : RegIdx) : Statement (.andReg x y) := of_line _
theorem xorReg (x y : RegIdx) : Statement (.xorReg x y) := of_line _
theorem addReg (x y : RegIdx) : Statement (.addReg x y) := of_line _
theorem shl (x y : RegIdx) : Statement (.shl x y) := of_line _
theorem ldI (nnn : Addr) : Statement (.ldI nnn) := of_line _
theorem rnd (x : RegIdx) (kk : Byte) : Statement (.rnd x kk) := of_line _
theorem addI (x : RegIdx) : Statement (.addI x) := of_line _

end Sys2Proof.Laws.AssemblesBack
end

