-- ==== Sys2Proof/Laws/Step.lean ====
section
/-! SUPPORT. What one step can do, said once: the four boundary operations and the held state. -/

namespace Sys2Proof.Machine

/-- With nothing pending the state is held (60_exceptions.md R243). -/
theorem step_nil {s : State} (h : s.pending = []) : step s = .next s := by
  simp [step, takeStep, h]

/-- A step performs the oldest pending operation (10_state.md R40). -/
theorem step_cons {s : State} {op : BoundaryOp} {rest : List BoundaryOp} (h : s.pending = op :: rest) :
    step s = performOp op (s.withPending rest) := by
  simp [step, takeStep, h]

theorem execOp_of_fault {s : State} (h : s.fault = true) (w : Word) (r : Byte) : execOp w r s = .next s := by
  simp [execOp, h]

theorem execOp_unsupported {s : State} {w : Word} (h : s.fault = false) (hw : decode w = none) (r : Byte) :
    execOp w r s = .next (s.raiseFault (.unsupportedWord w)) := by
  simp [execOp, h, hw]

theorem execOp_supported {s : State} {w : Word} {i : Instr} (h : s.fault = false) (hw : decode w = some i) (r : Byte) :
    execOp w r s = exec i (s.latchRnd r) := by
  simp [execOp, h, hw]

/-- Everything an instruction's rule can do to the fields outside the registers, the index register, the stack, `SP` and
`PC`: nothing. -/
theorem exec_fault_host {i : Instr} {s t : State} (h : exec i s = .next t) :
    t.fault = s.fault ∧ t.faultInfo = s.faultInfo ∧ t.rnd = s.rnd ∧ t.pending = s.pending := by
  cases i <;>
    simp only [exec, execRet, execJp, execCall, execSeByte, execSneByte, execLdByte, execAddByte, execLdReg, execAndReg,
      execXorReg, execAddReg, execShl, execLdI, execRnd, execAddI, Host.Outcome.next.injEq] at h <;>
    subst h <;> (try split) <;> simp

/-- What EXEC can do: nothing while FAULT = 1, take the fault, or run an instruction (10_state.md R41). -/
theorem execOp_cases {w : Word} {r : Byte} {s : State} {o : Result} (h : execOp w r s = o) :
    (s.fault = true ∧ o = .next s) ∨
    (s.fault = false ∧ decode w = none ∧ o = .next (s.raiseFault (.unsupportedWord w))) ∨
    ∃ i, s.fault = false ∧ decode w = some i ∧ o = exec i (s.latchRnd r) := by
  subst h
  cases hf : s.fault with
  | true => exact .inl ⟨rfl, execOp_of_fault hf w r⟩
  | false =>
    cases hw : decode w with
    | none => exact .inr (.inl ⟨rfl, rfl, execOp_unsupported hf hw r⟩)
    | some i => exact .inr (.inr ⟨i, rfl, rfl, execOp_supported hf hw r⟩)

/-- What a step can do, guards included (10_state.md R40 to R44). -/
theorem step_cases {s t : State} (h : step s = .next t) :
    (s.pending = [] ∧ t = s) ∨
    (∃ w r rest, s.pending = .exec w r :: rest ∧ execOp w r (s.withPending rest) = .next t) ∨
    (∃ x b rest, s.pending = .writeV x b :: rest ∧ t = writeVOp x b (s.withPending rest)) ∨
    (∃ rest, s.pending = .advance :: rest ∧ t = advanceOp (s.withPending rest)) ∨
    (∃ rest, s.pending = .reset :: rest ∧ t = (s.withPending rest).resetBlock) := by
  cases hp : s.pending with
  | nil =>
    rw [step_nil hp, Host.Outcome.next.injEq] at h
    exact .inl ⟨rfl, h.symm⟩
  | cons op rest =>
    rw [step_cons hp] at h
    cases op with
    | exec w r => exact .inr (.inl ⟨w, r, rest, rfl, h⟩)
    | writeV x b => exact .inr (.inr (.inl ⟨x, b, rest, rfl, by simpa [performOp] using h.symm⟩))
    | advance => exact .inr (.inr (.inr (.inl ⟨rest, rfl, by simpa [performOp] using h.symm⟩)))
    | reset => exact .inr (.inr (.inr (.inr ⟨rest, rfl, by simpa [performOp] using h.symm⟩)))

end Sys2Proof.Machine
end

