-- ==== Sys2Proof/Laws/Runs.lean ====
section
/-! SUPPORT. Runs in pieces: steps without a fault compose, and an EXEC with its ADVANCE is two of them
(70_reset_and_hazards.md R270). -/

namespace Sys2Proof.Machine

theorem StepsWithoutFault.refl {s : State} (h : s.fault = false) : StepsWithoutFault 0 s s := ⟨h, rfl⟩

theorem StepsWithoutFault.trans : ∀ {k m : Nat} {s t u : State},
    StepsWithoutFault k s t → StepsWithoutFault m t u → StepsWithoutFault (k + m) s u
  | 0, m, s, t, u, h, h' => by
    obtain ⟨_, rfl⟩ := h
    simpa using h'
  | k + 1, m, s, t, u, h, h' => by
    obtain ⟨hf, v, hv, h⟩ := h
    rw [Nat.succ_add]
    exact ⟨hf, v, hv, trans h h'⟩

/-- A supported word's EXEC and the ADVANCE after it: the instruction's own effect, then `PC + 2`. -/
theorem exec_advance {s t : State} {w : Word} {r : Byte} {rest : List BoundaryOp} {i : Instr}
    (hp : s.pending = .exec w r :: .advance :: rest) (hf : s.fault = false) (hd : decode w = some i)
    (h : exec i ((s.withPending (.advance :: rest)).latchRnd r) = .next t) :
    StepsWithoutFault 2 s (t.withPending rest).pcPlusTwo := by
  obtain ⟨hft, -, -, hpt⟩ := exec_fault_host h
  have ht : t.fault = false := hft.trans hf
  refine ⟨hf, t, ?_, ht, (t.withPending rest).pcPlusTwo, ?_, ht, rfl⟩
  · exact (step_cons hp).trans ((execOp_supported (s := s.withPending (.advance :: rest)) hf hd r).trans h)
  · rw [step_cons hpt, performOp, advanceOp, if_neg (by simp [ht])]

theorem execAdvancePairs_append (a b : List (Word × Byte)) :
    execAdvancePairs (a ++ b) = execAdvancePairs a ++ execAdvancePairs b := by
  induction a with
  | nil => rfl
  | cons p ps ih => simp [execAdvancePairs, ih]

end Sys2Proof.Machine
end

