-- ==== Sys2Proof/Tests/Slice0.lean ====
section
/-! SUPPORT. Tests whose expected results come from the spec: words written out bit by bit from the patterns of
30_encoding.md R78, the vectors of 95_test_vectors.md (their numbers in the names), ill-formed assembler lines, and for
each statement with hypotheses a witness that meets them. -/

namespace Sys2Proof.Tests

open Sys2Proof.Machine

/-- What a next state shows. -/
def look {α : Type} (f : State → α) : Result → Option α
  | .next s => some (f s)
  | .fault _ => none
  | .refused _ => none

/-- The reset state with `PC` at an address. -/
def at_ (a : Word) : State := State.reset.setPc a

/-- The reset state with `PC` at an address and operations pending. -/
def asked (a : Word) (ops : List BoundaryOp) : State := (at_ a).withPending ops

/-- A faulted state at an address with operations pending. -/
def faulted (a : Word) (ops : List BoundaryOp) : State := ((at_ a).raiseFault (.unsupportedWord 0x0000)).withPending ops

/-! ## Decoding: the patterns of 30_encoding.md R78, bit by bit -/

theorem test_decode_RET : decode 0b0000_0000_1110_1110 = some .ret := by decide
theorem test_decode_JP : decode 0b0001_0010_0001_0110 = some (.jp 0x216) := by decide
theorem test_decode_CALL : decode 0b0010_1010_1011_1100 = some (.call 0xABC) := by decide
theorem test_decode_SE : decode 0b0011_0101_0100_0010 = some (.seByte 0x5 0x42) := by decide
theorem test_decode_SNE : decode 0b0100_1110_0011_0010 = some (.sneByte 0xE 0x32) := by decide
theorem test_decode_LD_BYTE : decode 0b0110_1010_1111_1100 = some (.ldByte 0xA 0xFC) := by decide
theorem test_decode_ADD_BYTE : decode 0b0111_0001_0000_0011 = some (.addByte 0x1 0x03) := by decide
theorem test_decode_LD_REG : decode 0b1000_1101_0011_0000 = some (.ldReg 0xD 0x3) := by decide
theorem test_decode_AND : decode 0b1000_0001_0010_0010 = some (.andReg 0x1 0x2) := by decide
theorem test_decode_XOR : decode 0b1000_0001_0010_0011 = some (.xorReg 0x1 0x2) := by decide
theorem test_decode_ADD_REG : decode 0b1000_1010_1011_0100 = some (.addReg 0xA 0xB) := by decide
theorem test_decode_SHL : decode 0b1000_1100_0000_1110 = some (.shl 0xC 0x0) := by decide
theorem test_decode_LD_I : decode 0b1010_0001_0010_0011 = some (.ldI 0x123) := by decide
theorem test_decode_RND : decode 0b1100_0101_0000_1111 = some (.rnd 0x5 0x0F) := by decide
theorem test_decode_ADD_I : decode 0b1111_0010_0001_1110 = some (.addI 0x2) := by decide

/-- T80 to T85, and the ends of the unsupported ranges of 30_encoding.md R80. -/
theorem test_unsupported_words : [0x0000, 0x00E0, 0x00ED, 0x00EF, 0x01EE, 0x0FFF, 0x5000, 0x5FFF, 0x8121, 0x812D, 0x812F, 0x9000,
    0x9FFF, 0xB000, 0xBFFF, 0xD000, 0xEFFF, 0xF01F, 0xF00E, 0xFF1D].all (fun w => decode w = none) = true := by decide

/-- The supported words next to those ranges. -/
theorem test_supported_edges : [0x00EE, 0x1000, 0x4FFF, 0x6000, 0x8FFE, 0x8000, 0xA000, 0xAFFF, 0xC000, 0xCFFF, 0xF01E, 0xFF1E].all
    (fun w => decode w ≠ none) = true := by decide

/-! ## Assembler lines (30_encoding.md R83) -/

theorem test_bad_register : Asm.assemble (.ldByte 16 0x00) = none := by decide
theorem test_bad_second_register : Asm.assemble (.addReg 0 16) = none ∧ Asm.assemble (.shl 0 (some 16)) = none := by decide
theorem test_bad_byte : Asm.assemble (.seByte 0 0x100) = none := by decide
theorem test_bad_address : Asm.assemble (.jp 0x1000) = none := by decide
theorem test_shl_without_second : Asm.assemble (.shl 0xC none) = some (.shl 0xC 0x0) := by decide
/-- P1, P3: listings. -/
theorem test_render : Asm.render (.ldByte 0xB 0x03) = "LD VB, 0x03".toList ∧ Asm.render (.call 0x20E) = "CALL 0x20E".toList ∧
    Asm.render (.shl 0xC none) = "SHL VC".toList := by decide

/-! ## Instructions: vectors of 95_test_vectors.md -/

/-- T1, T3: the slot `SP & 0xF` is read, all 16 bits, and the slot stays. -/
theorem test_T1_ret : look (fun t => (t.pc, t.readSlot 1)) (exec .ret (((at_ 0x0212).setSp 1).writeSlot 1 0x0204)) =
    some (0x0204, 0x0204) := by
  simp [look, exec, execRet, at_]

/-- T2: `SP` below zero is the largest value. -/
theorem test_T2_ret_underflow : look (fun t => (t.pc, t.sp)) (exec .ret ((at_ 0x0200).writeSlot 0 0x0ABC)) =
    some (0x0ABC, BitVec.allOnes Config.SPW) := by
  simp [look, exec, execRet, at_, BitVec.neg_one_eq_allOnes]

/-- T5. -/
theorem test_T5_jp : look (·.pc) (exec (.jp 0x234) (at_ 0x0200)) = some 0x0232 := by decide
/-- T6. -/
theorem test_T6_jp_zero : look (·.pc) (exec (.jp 0x000) (at_ 0x0200)) = some 0xFFFE := by decide

/-- T9. -/
theorem test_T9_call : look (fun t => (t.sp, t.readSlot 1, t.pc)) (exec (.call 0x300) (at_ 0x0204)) =
    some (1, 0x0204, 0x0300) := by
  simp [look, exec, execCall, at_, zextAddr]

/-- T10: `SP` wraps and slot 0 is written. -/
theorem test_T10_call_wrap : look (fun t => (t.sp, t.readSlot 0, t.pc))
    (exec (.call 0xABC) ((at_ 0x0400).setSp (BitVec.allOnes _))) = some (0, 0x0400, 0x0ABC) := by
  have h : BitVec.allOnes Config.SPW + 1 = 0 := by simp [← BitVec.neg_one_eq_allOnes]
  simp only [look, exec, execCall, at_, State.setSp_sp, h]
  simp [zextAddr, slotIndex]

/-- T11. -/
theorem test_T11_se_taken : look (·.pc) (exec (.seByte 5 0x42) ((at_ 0x0300).writeV 5 0x42)) = some 0x0302 := by decide
/-- T12. -/
theorem test_T12_se_not_taken : look (·.pc) (exec (.seByte 5 0x43) ((at_ 0x0300).writeV 5 0x42)) = some 0x0300 := by decide
/-- T17. -/
theorem test_T17_sne : look (·.pc) (exec (.sneByte 0xE 0x32) ((at_ 0x0300).writeV 0xE 0x32)) = some 0x0300 := by decide
/-- T18. -/
theorem test_T18_sne_wrap : look (·.pc) (exec (.sneByte 0 0x00) ((at_ 0xFFFE).writeV 0 0x01)) = some 0x0000 := by decide
/-- T20. -/
theorem test_T20_ldByte : look (·.readV 0xA) (exec (.ldByte 0xA 0xFC) State.reset) = some 0xFC := by decide
/-- T21. -/
theorem test_T21_ldByte_VF : look (·.readV 0xF) (exec (.ldByte 0xF 0x00) (State.reset.writeV 0xF 0x01)) = some 0x00 := by decide
/-- T22: a wrap and no flag. -/
theorem test_T22_addByte : look (fun t => (t.readV 0xA, t.readV 0xF))
    (exec (.addByte 0xA 0x01) ((State.reset.writeV 0xA 0xFF).writeV 0xF 0x5A)) = some (0x00, 0x5A) := by decide
/-- T24. -/
theorem test_T24_addByte_decrement : look (·.readV 0) (exec (.addByte 0 0xFF) State.reset) = some 0xFF := by decide
/-- T30. -/
theorem test_T30_ldReg : look (fun t => (t.readV 0xD, t.readV 3)) (exec (.ldReg 0xD 3) (State.reset.writeV 3 0x0F)) =
    some (0x0F, 0x0F) := by decide
/-- T32. -/
theorem test_T32_and : look (·.readV 1) (exec (.andReg 1 2) ((State.reset.writeV 1 0xF0).writeV 2 0x3C)) = some 0x30 := by decide
/-- T34. -/
theorem test_T34_xor : look (·.readV 1) (exec (.xorReg 1 2) ((State.reset.writeV 1 0xF0).writeV 2 0x3C)) = some 0xCC := by decide
/-- T41: `y = 0xF` adds the old `VF`. -/
theorem test_T41_addReg : look (fun t => (t.readV 0xA, t.readV 0xF))
    (exec (.addReg 0xA 0xF) ((State.reset.writeV 0xA 0x01).writeV 0xF 0xFF)) = some (0x00, 0x01) := by decide
/-- T42: `x = 0xF`, the sum is lost. -/
theorem test_T42_addReg_VF : look (·.readV 0xF)
    (exec (.addReg 0xF 0xA) ((State.reset.writeV 0xF 0x10).writeV 0xA 0x20)) = some 0x00 := by decide
/-- T44. -/
theorem test_T44_shl : look (fun t => (t.readV 0xC, t.readV 0xF)) (exec (.shl 0xC 0) (State.reset.writeV 0xC 0xFC)) =
    some (0xF8, 0x01) := by decide
/-- T50: `x = 0xF`. -/
theorem test_T50_shl_VF : look (·.readV 0xF) (exec (.shl 0xF 0) (State.reset.writeV 0xF 0x80)) = some 0x02 := by decide
/-- T60. -/
theorem test_T60_ldI : look (·.i) (exec (.ldI 0x123) (State.reset.setI 0xFFFF)) = some 0x0123 := by decide
/-- T62. -/
theorem test_T62_rnd : look (·.readV 5) (step (asked 0x0200 [.exec 0xC50F 0xA7])) = some 0x07 := by decide
/-- T67. -/
theorem test_T67_addI : look (·.i) (exec (.addI 0) ((State.reset.setI 0x0FFF).writeV 0 0x01)) = some 0x1000 := by decide
/-- T68. -/
theorem test_T68_addI_wrap : look (fun t => (t.i, t.readV 0xF)) (exec (.addI 3) ((State.reset.setI 0xFFFF).writeV 3 0x02)) =
    some (0x0001, 0x00) := by decide

/-! ## Boundary operations -/

/-- T80. -/
theorem test_T80_unsupported : look (fun t => (t.fault, t.pc, t.readV 1, t.faultInfo))
    (step ((asked 0x0200 [.exec 0x00E0 0]).writeV 1 0x05)) = some (true, 0x0200, 0x05, some (.unsupportedWord 0x00E0)) := by decide
/-- T86. -/
theorem test_T86_sticky : look (fun t => (t.readV 0xA, t.pc, t.fault, t.pending)) (step (faulted 0x0200 [.exec 0x6A01 0])) =
    some (0x00, 0x0200, true, []) := by decide
/-- T88. -/
theorem test_T88_writeV : look (·.readV 3) (step (asked 0x0200 [.writeV 3 0x0F])) = some 0x0F := by decide
/-- T89. -/
theorem test_T89_advance_wrap : look (·.pc) (step (asked 0xFFFE [.advance])) = some 0x0000 := by decide
/-- T90. -/
theorem test_T90_advance_odd : look (·.pc) (step (asked 0x0201 [.advance])) = some 0x0203 := by decide
/-- The host's word runs at the next step, before what is pending. -/
theorem test_withFetchWord : look (fun t => (t.readV 0xA, t.pending)) (step ((asked 0 [.advance]).withFetchWord 16 0x6AFC)) =
    some (0xFC, [.advance]) := by decide
theorem test_decodeTableWord : decodeTableWord 16 0x8AB4 = some (.addReg 0xA 0xB) ∧ decodeTableWord 17 0x8AB4 = none := by decide

/-! ## The harness -/

/-- 20_memory.md R63, R64: the word is fetched most significant byte first, executed, and `PC` advances. -/
theorem test_harness_runs : (match Harness.step 0 ⟨at_ 0x0200, [(0x200, 0x6A), (0x201, 0xFC)]⟩ with
    | .next (.running h) => some (h.core.readV 0xA, h.core.pc)
    | _ => none) = some (0xFC, 0x0202) := by decide
/-- P1's last word halts. -/
theorem test_harness_halts : (match Harness.step 0 ⟨at_ 0x0216, [(0x216, 0x12), (0x217, 0x16)]⟩ with
    | .next (.ended e h) => some (e, h.core.pc)
    | _ => none) = some (.halt, 0x0216) := by decide
/-- P4's second word faults. -/
theorem test_harness_faults : (match Harness.step 0 ⟨at_ 0x0002, []⟩ with
    | .next (.ended e h) => some (e, h.core.fault, h.core.pc)
    | _ => none) = some (.faulted, true, 0x0002) := by decide
/-- 20_memory.md R63: 0x0FFE is fetched, 0x0FFF is not. -/
theorem test_harness_range : Memory.fetchWord [(0xFFE, 0x12), (0xFFF, 0x34)] 0x0FFE = some 0x1234 ∧
    Memory.fetchWord [(0xFFE, 0x12), (0xFFF, 0x34)] 0x0FFF = none := by decide
theorem test_memory_keeps_form : Memory.place [(0x201, 0x01)] 0x200 [0x05, 0x00, 0x07] = some [(0x200, 0x05), (0x202, 0x07)] ∧
    Memory.wf [(0x200, 0x05), (0x202, 0x07)] = true ∧ Memory.wf [(0x200, 0x00)] = false ∧ Memory.wf [(0x1000, 0x01)] = false ∧
    Memory.wf [(2, 1), (2, 1)] = false := by decide

/-! ## Witnesses: states and operands that meet the hypotheses of the statements -/

theorem witness_EncodeOfDecode : decode 0x81FE = some (.shl 0x1 0xF) := by decide
theorem witness_NoWordMatchesTwoRows : (⟨.JP, 0x1000, 0xF000⟩ : Row) ∈ rows ∧
    Row.matchesWord ⟨.JP, 0x1000, 0xF000⟩ 0x1216 = true := by decide
theorem witness_ShlWordIgnoresSecondField : (0x8C0E : Word) &&& 0xF00F = 0x800E ∧
    (0x8CFE : Word) &&& 0xFF0F = (0x8C0E : Word) &&& 0xFF0F := by decide
/-- A word of each row, for the first clause of each instruction's statement. -/
theorem witness_rows : (0x1FFF : Word) &&& 0xF000 = 0x1000 ∧ (0x2000 : Word) &&& 0xF000 = 0x2000 ∧ (0x3F01 : Word) &&& 0xF000 = 0x3000 ∧
    (0x4E32 : Word) &&& 0xF000 = 0x4000 ∧ (0x6AFC : Word) &&& 0xF000 = 0x6000 ∧ (0x7F01 : Word) &&& 0xF000 = 0x7000 ∧
    (0x8D30 : Word) &&& 0xF00F = 0x8000 ∧ (0x8122 : Word) &&& 0xF00F = 0x8002 ∧ (0x8123 : Word) &&& 0xF00F = 0x8003 ∧
    (0x8FA4 : Word) &&& 0xF00F = 0x8004 ∧ (0x8F0E : Word) &&& 0xF00F = 0x800E ∧ (0xA000 : Word) &&& 0xF000 = 0xA000 ∧
    (0xCFF0 : Word) &&& 0xF000 = 0xC000 ∧ (0xFF1E : Word) &&& 0xF0FF = 0xF01E := by decide
/-- The slot CALL writes and one it does not, for `SP = 0`. -/
theorem witness_CallPushesItsAddress : look (fun t => t.sp) (exec (.call 0x300) (at_ 0x0204)) = some 1 ∧
    (1 : SlotIdx).toNat = (1 : BitVec Config.SPW).toNat % 16 ∧ (0 : SlotIdx).toNat ≠ (1 : BitVec Config.SPW).toNat % 16 := by
  have h := slotIndex_toNat 1
  simp only [BitVec.ofNat_eq_ofNat, slotIndex_ofNat] at h
  refine ⟨by simp [look, exec, execCall, at_], h, ?_⟩
  simp only [BitVec.ofNat_eq_ofNat]
  rw [← h]
  decide
theorem witness_SeSkips_SneSkips : ((at_ 0x0300).writeV 5 0x42).readV 5 = 0x42 ∧ ((at_ 0x0300).writeV 5 0x42).readV 5 ≠ 0x43 := by decide
theorem witness_AddReg_Shl : (0xA : RegIdx) ≠ 0xF ∧ (0xF : RegIdx) = 0xF := by decide
/-- A register of each frame that the instruction does not write. -/
theorem witness_frames : (0xE : RegIdx) ∉ [(0xF : RegIdx)] ∧ (0x0 : RegIdx) ∉ [(0xA : RegIdx), 0xF] := by decide
theorem witness_StepRunsDecodedInstruction : (asked 0 [.exec 0x6AFC 7]).pending = .exec 0x6AFC 7 :: [] ∧
    (asked 0 [.exec 0x6AFC 7]).fault = false ∧ decode 0x6AFC = some (.ldByte 0xA 0xFC) := by decide
theorem witness_UnsupportedWordSetsFaultOnly : (asked 0 [.exec 0x5120 7]).pending = .exec 0x5120 7 :: [] ∧
    (asked 0 [.exec 0x5120 7]).fault = false ∧ decode 0x5120 = none := by decide
theorem witness_FaultIsSticky : (faulted 0 [.advance]).fault = true ∧ (faulted 0 [.advance]).pending = .advance :: [] ∧
    BoundaryOp.advance ≠ .reset := by decide
theorem witness_FaultClearedOnlyByReset : (faulted 0 [.reset]).fault = true ∧
    look (·.fault) (step (faulted 0 [.reset])) = some false := by decide
theorem witness_FaultSetOnlyByUnsupportedWord : (asked 0 [.exec 0x5120 7]).fault = false ∧
    look (·.fault) (step (asked 0 [.exec 0x5120 7])) = some true := by decide
theorem witness_ResetOperation : (faulted 0 [.reset]).pending = .reset :: [] := by decide
theorem witness_WriteVWritesOneRegister : (asked 0 [.writeV 0xF (hostByte 0x1FF)]).pending = .writeV 0xF (hostByte 0x1FF) :: [] ∧
    (asked 0 [.writeV 0xF (hostByte 0x1FF)]).fault = false ∧ hostByte 0x1FF = 0xFF := by decide
theorem witness_AdvanceAddsTwo : (asked 0xFFFF [.advance]).pending = .advance :: [] ∧ (asked 0xFFFF [.advance]).fault = false := by decide
theorem witness_NoOperationHoldsState : State.reset.pending = [] := by decide
theorem witness_StepKeepsFaultAgreement : FaultAgrees (faulted 0 [.advance]) ∧
    step (faulted 0 [.advance]) = .next (faulted 0 []) := ⟨⟨rfl, by decide⟩, rfl⟩
theorem witness_PcChanged : look (·.pc) (exec (.jp 0x234) (at_ 0x0200)) ≠ some (at_ 0x0200).pc := by decide
/-- A register that is not read and is written, and one that is neither. -/
theorem witness_UnreadRegisters : (0xF : RegIdx) ∉ readsV (.addReg 0xA 0xB) ∧ (0xF : RegIdx) ∈ writesV (.addReg 0xA 0xB) ∧
    (0x0 : RegIdx) ∉ readsV (.addReg 0xA 0xB) ∧ (0x0 : RegIdx) ∉ writesV (.addReg 0xA 0xB) ∧
    ∃ t, exec (.addReg 0xA 0xB) State.reset = .next t := ⟨by decide, by decide, by decide, by decide, _, rfl⟩
theorem witness_OnlyRndReadsRandomInput : (∀ x kk, Instr.ret ≠ .rnd x kk) ∧ ∃ t, exec .ret State.reset = .next t :=
  ⟨nofun, _, rfl⟩
theorem witness_StackChanged_SpChanged : ∃ t, step (asked 0x0204 [.exec 0x2300 0]) = .next t ∧
    t.readSlot 1 ≠ (asked 0x0204 [.exec 0x2300 0]).readSlot 1 ∧ t.sp ≠ (asked 0x0204 [.exec 0x2300 0]).sp := by
  refine ⟨_, rfl, ?_, ?_⟩
  · simp [at_, asked]
  · have h : slotIndex (1 : BitVec Config.SPW) ≠ slotIndex 0 := by simp
    exact fun e => h (congrArg slotIndex (by simp [asked, at_] at e))
theorem witness_NextWordAddress : (asked 0x0208 [.exec 0x3307 0, .advance]).pending = .exec 0x3307 0 :: .advance :: [] ∧
    (asked 0x0208 [.exec 0x3307 0, .advance]).fault = false ∧ decode 0x3307 = some (.seByte 3 0x07) := by decide
/-- A call whose body is one word, as in program P3, and one whose body calls and returns again. -/
theorem witness_CallResumes : callDepth 15 0 [(0xF21E, 0)] = some 0 ∧ callDepth 15 0 [(0x2300, 0), (0x00EE, 0)] = some 0 ∧
    decode 0x220E = some (.call 0x20E) ∧ decode 0x00EE = some .ret ∧
    (asked 0x0204 (execAdvancePairs ((0x220E, 0) :: ([(0xF21E, 0)] ++ [(0x00EE, 0)])))).pending =
      execAdvancePairs ((0x220E, 0) :: ([(0xF21E, 0)] ++ [(0x00EE, 0)])) ++ [] := by decide
/-- The boundary: a body in which fifteen further calls are live at once meets the premises, one with sixteen does not. -/
theorem witness_CallResumes_fifteen_live :
    callDepth 15 0 (List.replicate 15 (0x2300, 0) ++ List.replicate 15 (0x00EE, 0)) = some 0 ∧
    callDepth 15 0 (List.replicate 16 (0x2300, 0) ++ List.replicate 16 (0x00EE, 0)) = none ∧
    (asked 0x0204 (execAdvancePairs ((0x220E, 0) ::
      ((List.replicate 15 (0x2300, 0) ++ List.replicate 15 (0x00EE, 0)) ++ [(0x00EE, 0)])))).fault = false := by decide
theorem witness_SeventeenthCall : (List.replicate 17 ((0x22FE : Word), (0 : Byte))).length = 17 ∧
    (∀ p ∈ List.replicate 17 ((0x22FE : Word), (0 : Byte)), ∃ nnn, decode p.1 = some (.call nnn)) ∧
    (asked 0x0304 (execAdvancePairs (List.replicate 17 (0x22FE, 0)))).fault = false :=
  ⟨by decide, fun p hp => ⟨0x2FE, by rw [List.eq_of_mem_replicate hp]; decide⟩, rfl⟩
theorem witness_Boot : (faulted 0 (bootOrder [(3, 0x0F)] [(0x8D30, 0)])).pending = bootOrder [(3, 0x0F)] [(0x8D30, 0)] ++ [] := by decide
theorem witness_HarnessStep : (at_ 0x0200).fault = false ∧ Memory.fetchWord [(0x200, 0x6A), (0x201, 0xFC)] (at_ 0x0200).pc = some 0x6AFC ∧
    isSelfJump 0x6AFC (at_ 0x0200).pc = false ∧ decode 0x6AFC ≠ none := by decide
theorem witness_HaltState : (at_ 0x0216).fault = false ∧ Memory.fetchWord [(0x216, 0x12), (0x217, 0x16)] (at_ 0x0216).pc = some 0x1216 ∧
    isSelfJump 0x1216 (at_ 0x0216).pc = true := by decide
theorem witness_FetchIsBigEndianInRange : (0x0FFF : Word).toNat > 0x0FFE ∧ (0x0FFE : Word).toNat ≤ 0x0FFE := by decide
theorem witness_LoadPlacesProgram : 0xFFE + [(0x12 : Byte), 0x34].length ≤ 4096 ∧ [(0x12 : Byte), 0x34] ≠ [] ∧
    4096 < 0xFFF + [(0x12 : Byte), 0x34].length ∧ Memory.place [] Config.RESET_PC.toNat [] = some [] := ⟨by decide, by decide, by decide, rfl⟩
theorem witness_HarnessRunEnds : (⟨State.reset, []⟩ : Harness).core.fault = false := by decide

end Sys2Proof.Tests
end

section
/-! PROOFS. Which instructions change `PC` (10_state.md R27): the value each instruction leaves in `PC`, said once, and
the instructions for which it can differ from the old one. -/

namespace Sys2Proof.Machine

/-- The value an instruction leaves in `PC`, before the fetch loop's ADVANCE (10_state.md R27). -/
def pcAfter (i : Instr) (s : State) : Word :=
  match i with
  | .ret => s.readSlot (slotIndex s.sp)
  | .jp nnn => zextAddr nnn - 2
  | .call nnn => zextAddr nnn
  | .seByte x kk => if s.readV x = kk then s.pc + 2 else s.pc
  | .sneByte x kk => if s.readV x ≠ kk then s.pc + 2 else s.pc
  | .ldByte _ _ | .addByte _ _ | .ldReg _ _ | .andReg _ _ | .xorReg _ _ | .addReg _ _ | .shl _ _ | .ldI _ | .rnd _ _
  | .addI _ => s.pc

/-- Every instruction completes, with `pcAfter` in `PC`. -/
theorem exec_pc (i : Instr) (s : State) : ∃ t, exec i s = .next t ∧ t.pc = pcAfter i s := by
  cases i with
  | seByte x kk => exact ⟨_, rfl, apply_ite State.pc ..⟩
  | sneByte x kk => exact ⟨_, rfl, apply_ite State.pc ..⟩
  | _ => exact ⟨_, rfl, rfl⟩

/-- The instructions that can leave another value in `PC`, with the condition on which a skip is taken. -/
theorem controlTransfer_of_pcAfter_ne {i : Instr} {s : State} (h : pcAfter i s ≠ s.pc) :
    i = .ret ∨ (∃ nnn, i = .jp nnn) ∨ (∃ nnn, i = .call nnn) ∨
      (∃ x kk, i = .seByte x kk ∧ s.readV x = kk) ∨ (∃ x kk, i = .sneByte x kk ∧ s.readV x ≠ kk) := by
  cases i with
  | ret => exact .inl rfl
  | jp nnn => exact .inr (.inl ⟨nnn, rfl⟩)
  | call nnn => exact .inr (.inr (.inl ⟨nnn, rfl⟩))
  | seByte x kk =>
    have taken : s.readV x = kk := by_contra fun hn => h (if_neg hn)
    exact .inr (.inr (.inr (.inl ⟨x, kk, rfl, taken⟩)))
  | sneByte x kk =>
    have taken : s.readV x ≠ kk := by_contra fun hn => h (if_neg hn)
    exact .inr (.inr (.inr (.inr ⟨x, kk, rfl, taken⟩)))
  | _ => exact absurd rfl h

/-- Settles O35: every instruction completes with `pcAfter` in `PC`, which is the old value but for control transfers. -/
theorem pcChangedOnlyByControlTransfer : Obligations.PcChangedOnlyByControlTransfer := by
  intro i s
  obtain ⟨t, ht, hpc⟩ := exec_pc i s
  exact ⟨t, ht, fun hne => controlTransfer_of_pcAfter_ne (hpc ▸ hne)⟩

end Sys2Proof.Machine
end

section
/-! PROOFS. Register-immediate instructions (41_register_immediate.md R150, R155): the words of a format `K` row as its
instruction, and the frame of one register write. -/

namespace Sys2Proof

/-- The field `x` as a shift and a truncation (30_encoding.md R71). -/
theorem fieldX_eq_setWidth (w : Word) : fieldX w = (w >>> 8).setWidth 4 := BitVec.setWidth_ushiftRight_eq_extractLsb.symm

/-- The field `kk` as a truncation (30_encoding.md R71). -/
theorem fieldKK_eq_setWidth (w : Word) : fieldKK w = w.setWidth 8 := (BitVec.setWidth_eq_extractLsb' (by decide)).symm

/-- A word that a row fixes in its first digit alone has that digit, and any three after it (30_encoding.md R74). -/
theorem exists_digits_of_and_F000 {w : Word} {op : BitVec 4} (h : w &&& 0xF000 = digits op 0 0 0) :
    ∃ b c d, w = digits op b c d := by
  obtain ⟨a, b, c, d, rfl⟩ := exists_digits w
  have hmask : digits (a &&& 0xF) (b &&& 0) (c &&& 0) (d &&& 0) = digits op 0 0 0 :=
    (digits_and a b c d 0xF 0 0 0).symm.trans h
  obtain ⟨ha, -, -, -⟩ := digits_inj.mp hmask
  exact ⟨b, c, d, congrArg (digits · b c d) ((digit_and_F a).symm.trans ha)⟩

/-- The words of a format `K` row decode with the row's fields, if the decoder reads the row's digits so. -/
theorem decode_formatK_of_and_F000 {op : BitVec 4} {instr : RegIdx → Byte → Instr}
    (hrow : ∀ b c d, decode (digits op b c d) = some (instr b (byteOf c d)))
    {w : Word} (hw : w &&& 0xF000 = digits op 0 0 0) :
    decode w = some (instr ((w >>> 8).setWidth 4) (w.setWidth 8)) := by
  obtain ⟨b, c, d, rfl⟩ := exists_digits_of_and_F000 hw
  rw [← fieldX_eq_setWidth, ← fieldKK_eq_setWidth, fieldX_digits, fieldKK_digits, hrow]

theorem decode_digits_ldByte (b c d : BitVec 4) : decode (digits 6 b c d) = some (.ldByte b (byteOf c d)) := by
  simp [decode_digits]

theorem decode_digits_addByte (b c d : BitVec 4) : decode (digits 7 b c d) = some (.addByte b (byteOf c d)) := by
  simp [decode_digits]

end Sys2Proof

namespace Sys2Proof.Machine

/-- A register write leaves every other register and everything else as it was. -/
theorem writeV_frame (s : State) (x : RegIdx) (b : Byte) :
    SameRegistersBut [x] s (s.writeV x b) ∧ (s.writeV x b).i = s.i ∧ SameStack s (s.writeV x b) ∧
      (s.writeV x b).sp = s.sp ∧ (s.writeV x b).pc = s.pc ∧ SameFaultAndHost s (s.writeV x b) := by
  have others : SameRegistersBut [x] s (s.writeV x b) := fun y hy =>
    State.readV_writeV_other s b (List.ne_of_not_mem_cons hy).symm
  exact ⟨others, rfl, fun _ => rfl, rfl, rfl, rfl, rfl, rfl, rfl⟩

theorem exec_ldByte (x : RegIdx) (kk : Byte) (s : State) : exec (.ldByte x kk) s = .next (s.writeV x kk) := rfl

theorem exec_addByte (x : RegIdx) (kk : Byte) (s : State) :
    exec (.addByte x kk) s = .next (s.writeV x (sumByte (s.readV x) kk)) := rfl

/-- Settles O12: the instruction is one register write, of `kk`. -/
theorem ldByteWritesImmediate : Obligations.LdByteWritesImmediate :=
  ⟨fun _ => decode_formatK_of_and_F000 decode_digits_ldByte, fun x kk s =>
    ⟨s.writeV x kk, exec_ldByte x kk s, s.readV_writeV_same x kk, writeV_frame s x kk⟩⟩

/-- Settles O13: the instruction is one register write, of the sum modulo 256; `VF` is in the frame unless `x` is 0xF. -/
theorem addByteWrapsWithoutFlag : Obligations.AddByteWrapsWithoutFlag := by
  refine ⟨fun _ => decode_formatK_of_and_F000 decode_digits_addByte, fun x kk s =>
    ⟨_, exec_addByte x kk s, ?wrappedSum, writeV_frame s x _⟩⟩
  rw [State.readV_writeV_same, sumByte_toNat]

end Sys2Proof.Machine
end

section
/-! PROOFS. Register-register instructions that write one register (42_register_register.md R170, R175, R180): the words of
a format `R` row as its instruction, and each instruction as one register write. -/

namespace Sys2Proof

/-- The field `y` as a shift and a truncation (30_encoding.md R71). -/
theorem fieldY_eq_setWidth (w : Word) : fieldY w = (w >>> 4).setWidth 4 := BitVec.setWidth_ushiftRight_eq_extractLsb.symm

/-- A word that a row fixes in its first and last digit has those two, and any two between them (30_encoding.md R74). -/
theorem exists_digits_of_and_F00F {w : Word} {op n4 : BitVec 4} (h : w &&& 0xF00F = digits op 0 0 n4) :
    ∃ b c, w = digits op b c n4 := by
  obtain ⟨a, b, c, d, rfl⟩ := exists_digits w
  have hmask : digits (a &&& 0xF) (b &&& 0) (c &&& 0) (d &&& 0xF) = digits op 0 0 n4 :=
    (digits_and a b c d 0xF 0 0 0xF).symm.trans h
  obtain ⟨ha, -, -, hd⟩ := digits_inj.mp hmask
  exact ⟨b, c, congrArg₂ (digits · b c ·) ((digit_and_F a).symm.trans ha) ((digit_and_F d).symm.trans hd)⟩

/-- The words of a format `R` row decode with the row's fields, if the decoder reads the row's digits so. -/
theorem decode_formatR_of_and_F00F {n4 : BitVec 4} {instr : RegIdx → RegIdx → Instr}
    (hrow : ∀ b c, decode (digits 8 b c n4) = some (instr b c))
    {w : Word} (hw : w &&& 0xF00F = digits 8 0 0 n4) :
    decode w = some (instr ((w >>> 8).setWidth 4) ((w >>> 4).setWidth 4)) := by
  obtain ⟨b, c, rfl⟩ := exists_digits_of_and_F00F hw
  rw [← fieldX_eq_setWidth, ← fieldY_eq_setWidth, fieldX_digits, fieldY_digits, hrow]

theorem decode_digits_ldReg (b c : BitVec 4) : decode (digits 8 b c 0) = some (.ldReg b c) := by
  simp [decode_digits]

theorem decode_digits_andReg (b c : BitVec 4) : decode (digits 8 b c 2) = some (.andReg b c) := by
  simp [decode_digits]

theorem decode_digits_xorReg (b c : BitVec 4) : decode (digits 8 b c 3) = some (.xorReg b c) := by
  simp [decode_digits]

end Sys2Proof

namespace Sys2Proof.Machine

theorem exec_ldReg (x y : RegIdx) (s : State) : exec (.ldReg x y) s = .next (s.writeV x (s.readV y)) := rfl

theorem exec_andReg (x y : RegIdx) (s : State) :
    exec (.andReg x y) s = .next (s.writeV x (s.readV x &&& s.readV y)) := rfl

theorem exec_xorReg (x y : RegIdx) (s : State) :
    exec (.xorReg x y) s = .next (s.writeV x (s.readV x ^^^ s.readV y)) := rfl

/-- Settles O14: the instruction is one register write, of the old `V[y]`. -/
theorem ldRegCopies : Obligations.LdRegCopies :=
  ⟨fun _ => decode_formatR_of_and_F00F decode_digits_ldReg, fun x y s =>
    ⟨_, exec_ldReg x y s, s.readV_writeV_same x (s.readV y), writeV_frame s x _⟩⟩

/-- Settles O15: the instruction is one register write, of the byte whose bits are the conjunctions. -/
theorem andRegIsBitwise : Obligations.AndRegIsBitwise := by
  refine ⟨fun _ => decode_formatR_of_and_F00F decode_digits_andReg, fun x y s =>
    ⟨_, exec_andReg x y s, fun k => ?bit, writeV_frame s x _⟩⟩
  rw [State.readV_writeV_same, BitVec.getLsbD_and]

/-- Settles O16: the instruction is one register write, of the byte whose bits are the exclusive ors. -/
theorem xorRegIsBitwise : Obligations.XorRegIsBitwise := by
  refine ⟨fun _ => decode_formatR_of_and_F00F decode_digits_xorReg, fun x y s =>
    ⟨_, exec_xorReg x y s, fun k => ?bit, writeV_frame s x _⟩⟩
  rw [State.readV_writeV_same, BitVec.getLsbD_xor]

end Sys2Proof.Machine
end

section
/-! PROOFS. The index register and the random byte (43_index_and_random.md R200, R205, R210): the words of the rows `LD I`,
`RND` and `ADD I`, and the frame of one write of `I`. -/

namespace Sys2Proof

/-- The field `nnn` as a truncation (30_encoding.md R71). -/
theorem fieldNNN_eq_setWidth (w : Word) : fieldNNN w = w.setWidth 12 := (BitVec.setWidth_eq_extractLsb' (by decide)).symm

/-- The words of a format `A` row decode with the row's field, if the decoder reads the row's digits so. -/
theorem decode_formatA_of_and_F000 {op : BitVec 4} {instr : Addr → Instr}
    (hrow : ∀ b c d, decode (digits op b c d) = some (instr (addrOf b c d)))
    {w : Word} (hw : w &&& 0xF000 = digits op 0 0 0) : decode w = some (instr (w.setWidth 12)) := by
  obtain ⟨b, c, d, rfl⟩ := exists_digits_of_and_F000 hw
  rw [← fieldNNN_eq_setWidth, fieldNNN_digits, hrow]

/-- A word that a row fixes in every digit but the second has those three digits (30_encoding.md R74). -/
theorem exists_digits_of_and_F0FF {w : Word} {op y n4 : BitVec 4} (h : w &&& 0xF0FF = digits op 0 y n4) :
    ∃ b, w = digits op b y n4 := by
  obtain ⟨a, b, c, d, rfl⟩ := exists_digits w
  have hmask : digits (a &&& 0xF) (b &&& 0) (c &&& 0xF) (d &&& 0xF) = digits op 0 y n4 :=
    (digits_and a b c d 0xF 0 0xF 0xF).symm.trans h
  obtain ⟨ha, -, hc, hd⟩ := digits_inj.mp hmask
  exact ⟨b, digits_inj.mpr
    ⟨(digit_and_F a).symm.trans ha, rfl, (digit_and_F c).symm.trans hc, (digit_and_F d).symm.trans hd⟩⟩

theorem decode_digits_ldI (b c d : BitVec 4) : decode (digits 0xA b c d) = some (.ldI (addrOf b c d)) := by
  simp [decode_digits]

theorem decode_digits_rnd (b c d : BitVec 4) : decode (digits 0xC b c d) = some (.rnd b (byteOf c d)) := by
  simp [decode_digits]

theorem decode_digits_addI (b : BitVec 4) : decode (digits 0xF b 1 0xE) = some (.addI b) := by
  simp [decode_digits]

/-- The words of the format `F` row decode with the row's field `x`. -/
theorem decode_addI_of_and_F0FF {w : Word} (hw : w &&& 0xF0FF = digits 0xF 0 1 0xE) :
    decode w = some (.addI ((w >>> 8).setWidth 4)) := by
  obtain ⟨b, rfl⟩ := exists_digits_of_and_F0FF hw
  rw [← fieldX_eq_setWidth, fieldX_digits, decode_digits_addI]

end Sys2Proof

namespace Sys2Proof.Machine

/-- A write of `I` leaves everything else as it was. -/
theorem setI_frame (s : State) (a : Word) :
    SameRegisters s (s.setI a) ∧ SameStack s (s.setI a) ∧ (s.setI a).sp = s.sp ∧ (s.setI a).pc = s.pc ∧
      SameFaultAndHost s (s.setI a) :=
  ⟨s.readV_setI a, s.readSlot_setI a, rfl, rfl, rfl, rfl, rfl, rfl⟩

theorem exec_ldI (nnn : Addr) (s : State) : exec (.ldI nnn) s = .next (s.setI (zextAddr nnn)) := rfl

theorem exec_rnd (x : RegIdx) (kk : Byte) (s : State) : exec (.rnd x kk) s = .next (s.writeV x (s.rnd &&& kk)) := rfl

theorem exec_addI (x : RegIdx) (s : State) : exec (.addI x) s = .next (s.setI (s.i + zextByte (s.readV x))) := rfl

/-- Settles O19: the instruction is one write of `I`, of the address extended with zeros. -/
theorem ldIWritesAddress : Obligations.LdIWritesAddress :=
  ⟨fun _ => decode_formatA_of_and_F000 decode_digits_ldI, fun nnn s =>
    ⟨_, exec_ldI nnn s, zextAddr_toNat nnn, setI_frame s _⟩⟩

/-- Settles O20: the instruction is one register write, of the byte whose bits are the conjunctions. -/
theorem rndMasksRandomInput : Obligations.RndMasksRandomInput := by
  refine ⟨fun _ => decode_formatK_of_and_F000 decode_digits_rnd, fun x kk s =>
    ⟨_, exec_rnd x kk s, fun k => ?bit, writeV_frame s x _⟩⟩
  rw [State.readV_writeV_same, BitVec.getLsbD_and]

/-- Settles O21: the instruction is one write of `I`, of the sum modulo 2^16; every register is in the frame. -/
theorem addIAddsRegister : Obligations.AddIAddsRegister := by
  refine ⟨fun _ => decode_addI_of_and_F0FF, fun x s => ⟨_, exec_addI x s, ?wrappedSum, setI_frame s _⟩⟩
  rw [State.setI_i, BitVec.toNat_add, zextByte_toNat]

end Sys2Proof.Machine
end

section
/-! PROOFS. The decoder and the encoder against each other (30_encoding.md R73 to R80): every word is read by its four
digits, and no two rows of the table match one word. -/

namespace Sys2Proof

theorem decode_digits_jp (b c d : BitVec 4) : decode (digits 1 b c d) = some (.jp (addrOf b c d)) := by
  simp [decode_digits]

theorem decode_digits_call (b c d : BitVec 4) : decode (digits 2 b c d) = some (.call (addrOf b c d)) := by
  simp [decode_digits]

theorem decode_digits_seByte (b c d : BitVec 4) : decode (digits 3 b c d) = some (.seByte b (byteOf c d)) := by
  simp [decode_digits]

theorem decode_digits_sneByte (b c d : BitVec 4) : decode (digits 4 b c d) = some (.sneByte b (byteOf c d)) := by
  simp [decode_digits]

theorem decode_digits_addReg (b c : BitVec 4) : decode (digits 8 b c 4) = some (.addReg b c) := by
  simp [decode_digits]

theorem decode_digits_shl (b c : BitVec 4) : decode (digits 8 b c 0xE) = some (.shl b c) := by
  simp [decode_digits]

/-- A format `A` word decodes to its operand, if the decoder reads the row's digits so. -/
theorem decode_formatA {op : BitVec 4} {instr : Addr → Instr}
    (hrow : ∀ b c d, decode (digits op b c d) = some (instr (addrOf b c d))) (nnn : Addr) :
    decode (formatA op nnn) = some (instr nnn) := by
  obtain ⟨b, c, d, rfl⟩ := exists_addrOf nnn
  rw [formatA_digits, hrow]

/-- A format `K` word decodes to its operands, if the decoder reads the row's digits so. -/
theorem decode_formatK {op : BitVec 4} {instr : RegIdx → Byte → Instr}
    (hrow : ∀ b c d, decode (digits op b c d) = some (instr b (byteOf c d))) (x : RegIdx) (kk : Byte) :
    decode (formatK op x kk) = some (instr x kk) := by
  obtain ⟨c, d, rfl⟩ := exists_byteOf kk
  rw [formatK_digits, hrow]

/-- Settles O1: format by format, the decoder reads the digits the encoder writes. -/
theorem decodeOfEncode : Obligations.DecodeOfEncode := by
  intro i
  cases i with
  | ret => decide
  | jp nnn => exact decode_formatA decode_digits_jp nnn
  | call nnn => exact decode_formatA decode_digits_call nnn
  | seByte x kk => exact decode_formatK decode_digits_seByte x kk
  | sneByte x kk => exact decode_formatK decode_digits_sneByte x kk
  | ldByte x kk => exact decode_formatK decode_digits_ldByte x kk
  | addByte x kk => exact decode_formatK decode_digits_addByte x kk
  | ldReg x y => exact decode_digits_ldReg x y
  | andReg x y => exact decode_digits_andReg x y
  | xorReg x y => exact decode_digits_xorReg x y
  | addReg x y => exact decode_digits_addReg x y
  | shl x y => exact decode_digits_shl x y
  | ldI nnn => exact decode_formatA decode_digits_ldI nnn
  | rnd x kk => exact decode_formatK decode_digits_rnd x kk
  | addI x => exact decode_digits_addI x

/-- Settles O2: row by row, the fields and the fixed digits together are all four digits of the word. -/
theorem encodeOfDecode : Obligations.EncodeOfDecode := by
  intro w i h
  obtain ⟨a, b, c, d, rfl⟩ := exists_digits w
  rcases decode_cases h with ⟨⟨rfl, rfl, rfl, rfl⟩, rfl⟩ | ⟨rfl, rfl⟩ | ⟨rfl, rfl⟩ | ⟨rfl, rfl⟩ | ⟨rfl, rfl⟩ |
    ⟨rfl, rfl⟩ | ⟨rfl, rfl⟩ | ⟨⟨rfl, rfl⟩, rfl⟩ | ⟨⟨rfl, rfl⟩, rfl⟩ | ⟨⟨rfl, rfl⟩, rfl⟩ | ⟨⟨rfl, rfl⟩, rfl⟩ |
    ⟨⟨rfl, rfl⟩, rfl⟩ | ⟨rfl, rfl⟩ | ⟨rfl, rfl⟩ | ⟨⟨rfl, rfl, rfl⟩, rfl⟩
  · rfl
  · exact formatA_digits 1 b c d
  · exact formatA_digits 2 b c d
  · exact formatK_digits 3 b c d
  · exact formatK_digits 4 b c d
  · exact formatK_digits 6 b c d
  · exact formatK_digits 7 b c d
  · exact formatR_digits b c 0
  · exact formatR_digits b c 2
  · exact formatR_digits b c 3
  · exact formatR_digits b c 4
  · exact formatR_digits b c 0xE
  · exact formatA_digits 0xA b c d
  · exact formatK_digits 0xC b c d
  · exact formatF_digits b

/-- Two rows whose patterns agree under both masks are the same row of the table. -/
theorem rows_exclusive : ∀ r ∈ rows, ∀ q ∈ rows, r.pattern &&& q.mask = q.pattern &&& r.mask → r = q := by
  decide

/-- Two rows that match one word agree under both masks. -/
theorem pattern_and_mask_comm {w : Word} {r q : Row} (hr : r.matchesWord w = true) (hq : q.matchesWord w = true) :
    r.pattern &&& q.mask = q.pattern &&& r.mask := by
  have hr : w &&& r.mask = r.pattern := beq_iff_eq.mp hr
  have hq : w &&& q.mask = q.pattern := beq_iff_eq.mp hq
  rw [← hr, ← hq, BitVec.and_assoc, BitVec.and_assoc, BitVec.and_comm r.mask]

/-- Settles O3: two rows that match one word agree under both masks, which no two rows of the table do. -/
theorem noWordMatchesTwoRows : Obligations.NoWordMatchesTwoRows := fun _ r q hr hq hrw hqw =>
  rows_exclusive r hr q hq (pattern_and_mask_comm hrw hqw)

/-- The sixteen values of a digit. -/
theorem digit_cases (a : BitVec 4) : a = 0 ∨ a = 1 ∨ a = 2 ∨ a = 3 ∨ a = 4 ∨ a = 5 ∨ a = 6 ∨ a = 7 ∨ a = 8 ∨ a = 9 ∨
    a = 0xA ∨ a = 0xB ∨ a = 0xC ∨ a = 0xD ∨ a = 0xE ∨ a = 0xF := by
  revert a; decide

/-- The last digits that no row with first digit 8 has. -/
theorem unusedLastDigit_iff (d : BitVec 4) : (¬d = 0 ∧ ¬d = 2 ∧ ¬d = 3 ∧ ¬d = 4 ∧ ¬d = 0xE) ↔
    d.toNat ∈ [1, 5, 6, 7, 8, 9, 0xA, 0xB, 0xC, 0xD, 0xF] := by
  revert d; decide

/-- The unsupported words by digits (30_encoding.md R80): for each first digit, what the rows leave of the others. -/
theorem decode_digits_eq_none (a b c d : BitVec 4) : decode (digits a b c d) = none ↔
    (a = 0 ∧ ¬(b = 0 ∧ c = 0xE ∧ d = 0xE)) ∨ a = 5 ∨ a = 9 ∨ a = 0xB ∨ (a = 0xD ∨ a = 0xE) ∨
    (a = 8 ∧ d.toNat ∈ [1, 5, 6, 7, 8, 9, 0xA, 0xB, 0xC, 0xD, 0xF]) ∨ (a = 0xF ∧ ¬(c = 1 ∧ d = 0xE)) := by
  simp only [decode_digits, ite_some_eq_none]
  obtain rfl | rfl | rfl | rfl | rfl | rfl | rfl | rfl | rfl | rfl | rfl | rfl | rfl | rfl | rfl | rfl := digit_cases a
  on_goal 9 => simpa using unusedLastDigit_iff d
  all_goals simp

/-- A range of 0x1000 words is a value of the first digit. -/
theorem firstDigit_eq_iff (a b c d k : BitVec 4) (lo hi : Nat) (hlo : 4096 * k.toNat = lo) (hhi : lo + 4096 = hi) :
    a = k ↔ lo ≤ (digits a b c d).toNat ∧ (digits a b c d).toNat < hi := by
  have := b.isLt; have := c.isLt; have := d.isLt
  rw [digits_toNat, ← BitVec.toNat_inj]
  omega

/-- The words whose first digit is 0, but for 0x00EE. -/
theorem firstDigit_zero_iff (a b c d : BitVec 4) : (a = 0 ∧ ¬(b = 0 ∧ c = 0xE ∧ d = 0xE)) ↔
    (digits a b c d).toNat < 0x1000 ∧ (digits a b c d).toNat ≠ 0x00EE := by
  have := b.isLt; have := c.isLt; have := d.isLt
  rw [digits_toNat]
  simp only [← BitVec.toNat_inj, BitVec.ofNat_eq_ofNat, BitVec.toNat_ofNat]
  omega

/-- The words whose first digit is 0xF, but for those that end in 0x1E. -/
theorem firstDigit_F_iff (a b c d : BitVec 4) : (a = 0xF ∧ ¬(c = 1 ∧ d = 0xE)) ↔
    0xF000 ≤ (digits a b c d).toNat ∧ (digits a b c d).toNat % 256 ≠ 0x1E := by
  have := a.isLt; have := b.isLt; have := c.isLt; have := d.isLt
  rw [digits_toNat]
  simp only [← BitVec.toNat_inj, BitVec.ofNat_eq_ofNat, BitVec.toNat_ofNat]
  omega

theorem digits_mod_16 (a b c d : BitVec 4) : (digits a b c d).toNat % 16 = d.toNat := by
  have := d.isLt
  rw [digits_toNat]
  omega

/-- Settles O4: clause by clause, a range of words is a value of the first digit, and a remainder fixes the last digits. -/
theorem unsupportedWordsExactly : Obligations.UnsupportedWordsExactly := by
  intro w
  obtain ⟨a, b, c, d, rfl⟩ := exists_digits w
  have range := firstDigit_eq_iff a b c d
  rw [decode_digits_eq_none]
  refine or_congr (firstDigit_zero_iff a b c d) (or_congr (range 5 0x5000 0x6000 rfl rfl) (or_congr (range 9 0x9000 0xA000 rfl rfl)
    (or_congr (range 0xB 0xB000 0xC000 rfl rfl) (or_congr ?twoDigits (or_congr ?registerRows (firstDigit_F_iff a b c d))))))
  case twoDigits => rw [range 0xD 0xD000 0xE000 rfl rfl, range 0xE 0xE000 0xF000 rfl rfl]; omega
  case registerRows => rw [range 8 0x8000 0x9000 rfl rfl, digits_mod_16, and_assoc]

/-- Settles O5: the decoder evaluated at each listed word. -/
theorem listedWordsDecode : Obligations.ListedWordsDecode := by
  unfold Obligations.ListedWordsDecode
  decide

end Sys2Proof

namespace Sys2Proof.Machine

theorem exec_shl (x y : RegIdx) (s : State) : exec (.shl x y) s =
    .next ((s.writeV VF (shiftedOut (s.readV x))).writeV x
      (shiftedLeft ((s.writeV VF (shiftedOut (s.readV x))).readV x))) := rfl

/-- EXEC of a supported word depends on the word through its instruction's rule alone (10_state.md R41). -/
theorem execOp_congr {w w' : Word} {i i' : Instr} (hw : decode w = some i) (hw' : decode w' = some i')
    (h : ∀ s, exec i s = exec i' s) (r : Byte) (s : State) : execOp w r s = execOp w' r s := by
  cases hf : s.fault with
  | true => rw [execOp_of_fault hf, execOp_of_fault hf]
  | false => rw [execOp_supported hf hw, execOp_supported hf hw', h]

/-- The words of the row SHL that differ in the second field alone: their digits. -/
theorem exists_digits_of_same_shl {w w' : Word} (hw : w &&& 0xF00F = 0x800E) (hww' : w' &&& 0xFF0F = w &&& 0xFF0F) :
    ∃ x y y', w = digits 8 x y 0xE ∧ w' = digits 8 x y' 0xE := by
  obtain ⟨x, y, rfl⟩ := exists_digits_of_and_F00F (op := 8) (n4 := 0xE) hw
  obtain ⟨a', x', y', d', rfl⟩ := exists_digits w'
  have hmask : digits (a' &&& 0xF) (x' &&& 0xF) (y' &&& 0) (d' &&& 0xF) =
      digits (8 &&& 0xF) (x &&& 0xF) (y &&& 0) (0xE &&& 0xF) := by
    rw [← digits_and, ← digits_and]; exact hww'
  simp only [BitVec.ofNat_eq_ofNat, digit_and_F, digits_inj] at hmask
  obtain ⟨rfl, rfl, -, rfl⟩ := hmask
  exact ⟨x', y, y', rfl, rfl⟩

/-- Settles O6: both words decode to SHL of the same register, whose rule does not use the second field. -/
theorem shlWordIgnoresSecondField : Obligations.ShlWordIgnoresSecondField := by
  intro s w w' r rest hw hww'
  obtain ⟨x, y, y', rfl, rfl⟩ := exists_digits_of_same_shl hw hww'
  rw [step_cons rfl, step_cons rfl]
  exact execOp_congr (decode_digits_shl x y) (decode_digits_shl x y')
    (fun s => (exec_shl x y s).trans (exec_shl x y' s).symm) r _

end Sys2Proof.Machine
end

section
/-! PROOFS. Control transfer (40_control_flow.md R100 to R133): every instruction but CALL is one write of `PC`, RET with a
write of `SP`; CALL writes `SP`, one slot and `PC`. -/

namespace Sys2Proof.Machine

theorem exec_ret (s : State) : exec .ret s = .next ((s.setPc (s.readSlot (slotIndex s.sp))).setSp (s.sp - 1)) := rfl

theorem exec_jp (nnn : Addr) (s : State) : exec (.jp nnn) s = .next (s.setPc (zextAddr nnn - 2)) := rfl

theorem exec_call (nnn : Addr) (s : State) : exec (.call nnn) s =
    .next (((s.setSp (s.sp + 1)).writeSlot (slotIndex (s.sp + 1)) s.pc).setPc (zextAddr nnn)) := rfl

/-- A skip is a write of `PC`, of the old value when it is not taken. -/
theorem exec_seByte (x : RegIdx) (kk : Byte) (s : State) :
    exec (.seByte x kk) s = .next (s.setPc (if s.readV x = kk then s.pc + 2 else s.pc)) :=
  congrArg Host.Outcome.next (apply_ite s.setPc (s.readV x = kk) (s.pc + 2) s.pc).symm

theorem exec_sneByte (x : RegIdx) (kk : Byte) (s : State) :
    exec (.sneByte x kk) s = .next (s.setPc (if s.readV x ≠ kk then s.pc + 2 else s.pc)) :=
  congrArg Host.Outcome.next (apply_ite s.setPc (s.readV x ≠ kk) (s.pc + 2) s.pc).symm

/-- A write of `PC` leaves everything else as it was. -/
theorem setPc_frame (s : State) (a : Word) :
    SameRegisters s (s.setPc a) ∧ (s.setPc a).i = s.i ∧ SameStack s (s.setPc a) ∧ (s.setPc a).sp = s.sp ∧
      SameFaultAndHost s (s.setPc a) :=
  ⟨s.readV_setPc a, rfl, s.readSlot_setPc a, rfl, rfl, rfl, rfl, rfl⟩

/-- `PC + 2` is modulo 2^16 (10_state.md R28). -/
theorem pc_add_two_toNat (a : Word) : (a + 2).toNat = (a.toNat + 2) % 2 ^ 16 := BitVec.toNat_add a 2

/-- 1 as a value of `SP` is the number 1, whatever the width. -/
theorem one_mod_two_pow_spw : 1 % 2 ^ Config.SPW = 1 := Nat.mod_eq_of_lt (Nat.one_lt_two_pow (Nat.succ_ne_zero _))

theorem sp_add_one_toNat (p : BitVec Config.SPW) : (p + 1).toNat = (p.toNat + 1) % 2 ^ Config.SPW := by
  rw [BitVec.toNat_add, BitVec.ofNat_eq_ofNat, BitVec.toNat_ofNat, one_mod_two_pow_spw]

theorem sp_sub_one_toNat (p : BitVec Config.SPW) :
    (p - 1).toNat = (p.toNat + (2 ^ Config.SPW - 1)) % 2 ^ Config.SPW := by
  rw [BitVec.toNat_sub, BitVec.ofNat_eq_ofNat, BitVec.toNat_ofNat, one_mod_two_pow_spw, Nat.add_comm]

/-- The slot index of `SP` as the low four bits of its number (10_state.md R29). -/
theorem slotIndex_eq_ofNat (p : BitVec Config.SPW) : slotIndex p = BitVec.ofNat 4 p.toNat :=
  BitVec.eq_of_toNat_eq (slotIndex_toNat p)

/-- Settles O7: the instruction writes `PC`, from the slot that `SP` selects, and then `SP`. -/
theorem retReturnsToSlot : Obligations.RetReturnsToSlot := by
  refine ⟨by decide, fun s => ⟨_, exec_ret s, ?slot, sp_sub_one_toNat s.sp, fun _ => rfl, rfl, fun _ => rfl,
    rfl, rfl, rfl, rfl⟩⟩
  rw [← slotIndex_eq_ofNat, State.setSp_pc, State.setPc_pc]

/-- Settles O8: the instruction is one write of `PC`, of the difference modulo 2^16. -/
theorem jpJumpsTwoBelow : Obligations.JpJumpsTwoBelow := by
  refine ⟨fun _ => decode_formatA_of_and_F000 decode_digits_jp, fun nnn s =>
    ⟨_, exec_jp nnn s, ?wrappedDifference, setPc_frame s _⟩⟩
  rw [State.setPc_pc, BitVec.toNat_sub, zextAddr_toNat, Nat.add_comm]
  rfl

/-- Settles O9: the instruction writes the raised `SP`, the slot that this selects, and `PC`. -/
theorem callPushesItsAddress : Obligations.CallPushesItsAddress := by
  refine ⟨fun _ => decode_formatA_of_and_F000 decode_digits_call, fun nnn s =>
    ⟨_, exec_call nnn s, sp_add_one_toNat s.sp, fun j hj => ?pushed, fun j hj => ?kept, zextAddr_toNat nnn,
      fun _ => rfl, rfl, rfl, rfl, rfl, rfl⟩⟩
  case pushed =>
    have selected : slotIndex (s.sp + 1) = j := BitVec.eq_of_toNat_eq ((slotIndex_toNat _).trans hj.symm)
    rw [State.readSlot_setPc, State.readSlot_writeSlot, if_pos selected]
  case kept =>
    have other : slotIndex (s.sp + 1) ≠ j := fun e => hj (e ▸ slotIndex_toNat _)
    rw [State.readSlot_setPc, State.readSlot_writeSlot, if_neg other, State.readSlot_setSp]

/-- Settles O10: the instruction is one write of `PC`, of `PC + 2` exactly when the byte is equal. -/
theorem seSkipsWhenEqual : Obligations.SeSkipsWhenEqual := by
  refine ⟨fun _ => decode_formatK_of_and_F000 decode_digits_seByte, fun x kk s =>
    ⟨_, exec_seByte x kk s, fun equal => ?taken, fun different => ?untaken, setPc_frame s _⟩⟩
  case taken => rw [State.setPc_pc, if_pos equal, pc_add_two_toNat]
  case untaken => rw [State.setPc_pc, if_neg different]

/-- Settles O11: the instruction is one write of `PC`, of `PC + 2` exactly when the byte differs. -/
theorem sneSkipsWhenDifferent : Obligations.SneSkipsWhenDifferent := by
  refine ⟨fun _ => decode_formatK_of_and_F000 decode_digits_sneByte, fun x kk s =>
    ⟨_, exec_sneByte x kk s, fun different => ?taken, fun equal => ?untaken, setPc_frame s _⟩⟩
  case taken => rw [State.setPc_pc, if_pos different, pc_add_two_toNat]
  case untaken => rw [State.setPc_pc, if_neg (not_not_intro equal)]

end Sys2Proof.Machine
end

section
/-! PROOFS. Register-register instructions that also write `VF` (42_register_register.md R185, R190): two register writes,
in the order the spec gives (92_eei_decisions.md D7). -/

namespace Sys2Proof.Machine

theorem exec_addReg (x y : RegIdx) (s : State) : exec (.addReg x y) s =
    .next ((s.writeV x (sumByte (s.readV x) (s.readV y))).writeV VF (carryOut (s.readV x) (s.readV y))) := rfl

/-- Two register writes leave every other register and everything else as it was. -/
theorem writeV_writeV_frame (s : State) (x y : RegIdx) (a b : Byte) :
    let t := (s.writeV x a).writeV y b
    SameRegistersBut [x, y] s t ∧ t.i = s.i ∧ SameStack s t ∧ t.sp = s.sp ∧ t.pc = s.pc ∧ SameFaultAndHost s t := by
  refine ⟨fun z hz => ?others, rfl, fun _ => rfl, rfl, rfl, rfl, rfl, rfl, rfl⟩
  obtain ⟨hx, hy⟩ : z ≠ x ∧ z ≠ y := by simpa using hz
  rw [State.readV_writeV_other _ _ hy.symm, State.readV_writeV_other _ _ hx.symm]

/-- Settles O17: the carry is written last, so it stays in `VF` also when `VF` is the destination. -/
theorem addRegWritesSumAndCarry : Obligations.AddRegWritesSumAndCarry := by
  refine ⟨fun _ => decode_formatR_of_and_F00F decode_digits_addReg, fun x y s =>
    ⟨_, exec_addReg x y s, ?carry, fun hx => ?sum, writeV_writeV_frame s x VF _ _⟩⟩
  case carry => rw [State.readV_writeV_same, carryOut_eq]
  case sum => rw [State.readV_writeV_other _ _ (Ne.symm hx), State.readV_writeV_same, sumByte_toNat]

/-- Shifting the flag in place of a register gives 2 or 0. -/
theorem shiftedLeft_shiftedOut (b : Byte) : shiftedLeft (shiftedOut b) = if b.toNat ≥ 128 then 0x02 else 0x00 := by
  rw [shiftedOut_eq, apply_ite shiftedLeft]; rfl

/-- Settles O18: the flag is written first, so the shift of `VF` shifts the flag. -/
theorem shlShiftsAndFlagsTopBit : Obligations.ShlShiftsAndFlagsTopBit := by
  refine ⟨fun _ => decode_formatR_of_and_F00F decode_digits_shl, fun x y s =>
    ⟨_, exec_shl x y s, fun hx => ⟨?flag, ?shifted⟩, fun hx => ?shiftedFlag, ?registers,
      (writeV_writeV_frame s VF x _ _).2⟩⟩
  case flag => rw [State.readV_writeV_other _ _ hx, State.readV_writeV_same, shiftedOut_eq]
  case shifted => rw [State.readV_writeV_same, shiftedLeft_toNat, State.readV_writeV_other _ _ (Ne.symm hx)]
  case shiftedFlag => subst hx; rw [State.readV_writeV_same, State.readV_writeV_same, shiftedLeft_shiftedOut]
  case registers => exact fun z hz => (writeV_writeV_frame s VF x _ _).1 z (by simpa [and_comm] using hz)

end Sys2Proof.Machine
end

section
/-! PROOFS. The boundary operations (10_state.md R40 to R44), the fault (60_exceptions.md R231 to R236) and reset
(70_reset_and_hazards.md R260). -/

namespace Sys2Proof.Machine

/-! What each operation does at the next step, with its guard. -/

theorem step_exec_supported {s : State} {w : Word} {r : Byte} {rest : List BoundaryOp} {i : Instr}
    (hp : s.pending = .exec w r :: rest) (hf : s.fault = false) (hw : decode w = some i) :
    step s = exec i ((s.withPending rest).latchRnd r) :=
  (step_cons hp).trans (execOp_supported (s := s.withPending rest) hf hw r)

theorem step_exec_unsupported {s : State} {w : Word} {r : Byte} {rest : List BoundaryOp}
    (hp : s.pending = .exec w r :: rest) (hf : s.fault = false) (hw : decode w = none) :
    step s = .next ((s.withPending rest).raiseFault (.unsupportedWord w)) :=
  (step_cons hp).trans (execOp_unsupported (s := s.withPending rest) hf hw r)

theorem step_writeV {s : State} {x : RegIdx} {b : Byte} {rest : List BoundaryOp}
    (hp : s.pending = .writeV x b :: rest) (hf : s.fault = false) :
    step s = .next ((s.withPending rest).writeV x b) := by
  rw [step_cons hp, performOp, writeVOp, State.withPending_fault, hf]
  rfl

theorem step_advance {s : State} {rest : List BoundaryOp} (hp : s.pending = .advance :: rest) (hf : s.fault = false) :
    step s = .next (s.withPending rest).pcPlusTwo := by
  rw [step_cons hp, performOp, advanceOp, State.withPending_fault, hf]
  rfl

theorem step_reset {s : State} {rest : List BoundaryOp} (hp : s.pending = .reset :: rest) :
    step s = .next (s.withPending rest).resetBlock := step_cons hp

/-- While FAULT = 1 an operation other than RESET is taken and has no effect (10_state.md R32). -/
theorem step_of_fault {s : State} {op : BoundaryOp} {rest : List BoundaryOp} (hf : s.fault = true)
    (hp : s.pending = op :: rest) (hop : op ≠ .reset) : step s = .next (s.withPending rest) := by
  rw [step_cons hp]
  have hf : (s.withPending rest).fault = true := hf
  cases op with
  | exec w r => exact execOp_of_fault hf w r
  | writeV x b => rw [performOp, writeVOp, if_pos hf]
  | advance => rw [performOp, advanceOp, if_pos hf]
  | reset => exact absurd rfl hop

/-- WRITE_V and ADVANCE keep the stack, `SP`, FAULT and its record. -/
theorem writeVOp_keeps (x : RegIdx) (b : Byte) (s : State) :
    (writeVOp x b s).stack = s.stack ∧ (writeVOp x b s).sp = s.sp ∧ (writeVOp x b s).fault = s.fault ∧
      (writeVOp x b s).faultInfo = s.faultInfo := by
  rw [writeVOp]
  split <;> exact ⟨rfl, rfl, rfl, rfl⟩

theorem advanceOp_keeps (s : State) :
    (advanceOp s).stack = s.stack ∧ (advanceOp s).sp = s.sp ∧ (advanceOp s).fault = s.fault ∧
      (advanceOp s).faultInfo = s.faultInfo := by
  rw [advanceOp]
  split <;> exact ⟨rfl, rfl, rfl, rfl⟩

/-- What a step does to FAULT and its record (60_exceptions.md R230, R231, R236): it keeps both, it takes the fault of an
unsupported word, or it is RESET. -/
theorem step_fault_cases {s t : State} (h : step s = .next t) :
    (t.fault = s.fault ∧ t.faultInfo = s.faultInfo) ∨
    (s.fault = false ∧ t.fault = true ∧
      ∃ w r rest, s.pending = .exec w r :: rest ∧ decode w = none ∧ t.faultInfo = some (.unsupportedWord w)) ∨
    (t.fault = false ∧ t.faultInfo = none ∧ ∃ rest, s.pending = .reset :: rest) := by
  obtain ⟨-, rfl⟩ | ⟨w, r, rest, hp, hx⟩ | ⟨x, b, rest, -, rfl⟩ | ⟨rest, -, rfl⟩ | ⟨rest, hp, rfl⟩ := step_cases h
  · exact .inl ⟨rfl, rfl⟩
  · obtain ⟨-, ho⟩ | ⟨hf, hw, ho⟩ | ⟨i, hf, hw, ho⟩ := execOp_cases hx
    · cases ho
      exact .inl ⟨rfl, rfl⟩
    · cases ho
      exact .inr (.inl ⟨hf, rfl, w, r, rest, hp, hw, rfl⟩)
    · obtain ⟨hft, hit, -, -⟩ := exec_fault_host ho.symm
      exact .inl ⟨hft, hit⟩
  · exact .inl (writeVOp_keeps x b (s.withPending rest)).2.2
  · exact .inl (advanceOp_keeps (s.withPending rest)).2.2
  · exact .inr (.inr ⟨rfl, rfl, rest, hp⟩)

/-- Settles O33: a step keeps FAULT and its record, sets both at an unsupported word, or clears both. -/
theorem stepKeepsFaultAgreement : Obligations.StepKeepsFaultAgreement := by
  intro s t hs h
  obtain ⟨hf, hi⟩ | ⟨-, hf, w, r, rest, -, hw, hi⟩ | ⟨hf, hi, -⟩ := step_fault_cases h
  · rw [FaultAgrees, hf, hi]
    exact hs
  · rw [FaultAgrees, hi]
    exact ⟨hf, hw⟩
  · rw [FaultAgrees, hi]
    exact hf

/-- Settles O34: FAULT is 0 and nothing is recorded. -/
theorem resetFaultAgreement : Obligations.ResetFaultAgreement := State.reset_fault

/-- Settles O25: of the steps that change FAULT, RESET is the one that clears it. -/
theorem faultClearedOnlyByReset : Obligations.FaultClearedOnlyByReset := by
  intro s t hs h ht
  obtain ⟨hf, -⟩ | ⟨hf, -⟩ | ⟨-, -, hreset⟩ := step_fault_cases h
  · exact absurd (hs.symm.trans (hf.symm.trans ht)) (by decide)
  · exact absurd (hs.symm.trans hf) (by decide)
  · exact hreset

/-- Settles O26: of the steps that change FAULT, EXEC of an unsupported word is the one that sets it. -/
theorem faultSetOnlyByUnsupportedWord : Obligations.FaultSetOnlyByUnsupportedWord := by
  intro s t hs h ht
  obtain ⟨hf, -⟩ | ⟨-, -, w, r, rest, hp, hw, -⟩ | ⟨hf, -⟩ := step_fault_cases h
  · exact absurd (hs.symm.trans (hf.symm.trans ht)) (by decide)
  · exact ⟨w, r, rest, hp, hw⟩
  · exact absurd (hf.symm.trans ht) (by decide)

/-- Every instruction completes (60_exceptions.md R230). -/
theorem exec_completes (i : Instr) (s : State) : ∃ t, exec i s = .next t :=
  (exec_pc i s).imp fun _ h => h.1

/-- Every boundary operation gives a next state (60_exceptions.md R230). -/
theorem performOp_completes (op : BoundaryOp) (s : State) : ∃ t, performOp op s = .next t := by
  cases op with
  | exec w r =>
    obtain ⟨-, h⟩ | ⟨-, -, h⟩ | ⟨i, -, -, h⟩ := execOp_cases (rfl : execOp w r s = performOp (.exec w r) s)
    · exact ⟨_, h⟩
    · exact ⟨_, h⟩
    · exact (exec_completes i (s.latchRnd r)).imp fun _ ht => h.trans ht
  | writeV x b => exact ⟨_, rfl⟩
  | advance => exact ⟨_, rfl⟩
  | reset => exact ⟨_, rfl⟩

/-- Settles O27: every operation gives a next state, and so does holding the state. -/
theorem everyStepAnswersNext : Obligations.EveryStepAnswersNext := by
  intro s
  cases hp : s.pending with
  | nil => exact ⟨s, step_nil hp⟩
  | cons op rest => exact step_cons hp ▸ performOp_completes op _

/-- Settles O22: the state with the operation taken and the random input latched. -/
theorem stepRunsDecodedInstruction : Obligations.StepRunsDecodedInstruction :=
  fun _ _ _ _ _ hp hf hw => step_exec_supported hp hf hw

/-- Settles O23: the next state is the old one with the operation taken and the fault raised. -/
theorem unsupportedWordSetsFaultOnly : Obligations.UnsupportedWordSetsFaultOnly := fun _ _ _ _ hp hf hw =>
  ⟨_, step_exec_unsupported hp hf hw, State.raiseFault_accessors _ _, rfl, rfl, rfl, rfl⟩

/-- Settles O24: operation by operation, the test of FAULT. -/
theorem faultIsSticky : Obligations.FaultIsSticky := fun _ _ _ hf hp hop => step_of_fault hf hp hop

/-- Settles O28: the reset state read field by field. -/
theorem resetStateValues : Obligations.ResetStateValues :=
  ⟨State.reset_readV, State.reset_i, State.reset_readSlot, BitVec.toNat_zero, State.reset_pc, rfl⟩

/-- Settles O29: the next state shows the reset state's values, with the later operations pending. -/
theorem resetOperationResetsWholeBlock : Obligations.ResetOperationResetsWholeBlock := fun _ _ hp =>
  ⟨_, step_reset hp, State.reset_readV, State.reset_i, State.reset_readSlot, BitVec.toNat_zero, State.reset_pc, rfl,
    rfl, rfl⟩

theorem hostByte_toNat (u : Nat) : (hostByte u).toNat = u % 256 := by simp [hostByte]

/-- Settles O30: the next state is one register write away. -/
theorem writeVWritesOneRegister : Obligations.WriteVWritesOneRegister := by
  intro s x u rest hp hf
  obtain ⟨others, hi, hstack, hsp, hpc, hfault, hinfo, hrnd, hpending⟩ := writeV_frame (s.withPending rest) x (hostByte u)
  refine ⟨_, step_writeV hp hf, ?written, others, hi, hstack, hsp, hpc, hfault.trans hf, hinfo, hrnd, hpending⟩
  rw [State.readV_writeV_same, hostByte_toNat]

/-- Settles O31: the next state is one write of `PC` away. -/
theorem advanceAddsTwo : Obligations.AdvanceAddsTwo := by
  intro s rest hp hf
  obtain ⟨hv, hi, hstack, hsp, hfault, hinfo, hrnd, hpending⟩ := setPc_frame (s.withPending rest) (s.pc + 2)
  exact ⟨_, step_advance hp hf, pc_add_two_toNat s.pc, hv, hi, hstack, hsp, hfault.trans hf, hinfo, hrnd, hpending⟩

/-- Settles O32: a step performs a pending operation or nothing. -/
theorem noOperationHoldsState : Obligations.NoOperationHoldsState := fun _ hp => step_nil hp

end Sys2Proof.Machine
end

section
/-! PROOFS. What an instruction reads and writes (10_state.md R24, R36): the registers of its row, and the random input,
which RND alone reads. -/

namespace Sys2Proof.Machine

/-- Settles O36: each instruction's effect is a write that leaves the registers outside its row. -/
theorem registersWrittenAsTabled : Obligations.RegistersWrittenAsTabled := by
  intro i s
  cases i with
  | ret => exact ⟨_, exec_ret s, fun _ _ => rfl⟩
  | jp nnn => exact ⟨_, exec_jp nnn s, fun y _ => s.readV_setPc _ y⟩
  | call nnn => exact ⟨_, exec_call nnn s, fun _ _ => rfl⟩
  | seByte x kk => exact ⟨_, exec_seByte x kk s, fun y _ => s.readV_setPc _ y⟩
  | sneByte x kk => exact ⟨_, exec_sneByte x kk s, fun y _ => s.readV_setPc _ y⟩
  | ldByte x kk => exact ⟨_, exec_ldByte x kk s, (writeV_frame s x _).1⟩
  | addByte x kk => exact ⟨_, exec_addByte x kk s, (writeV_frame s x _).1⟩
  | ldReg x y => exact ⟨_, exec_ldReg x y s, (writeV_frame s x _).1⟩
  | andReg x y => exact ⟨_, exec_andReg x y s, (writeV_frame s x _).1⟩
  | xorReg x y => exact ⟨_, exec_xorReg x y s, (writeV_frame s x _).1⟩
  | addReg x y => exact ⟨_, exec_addReg x y s, (writeV_writeV_frame s x VF _ _).1⟩
  | shl x y => exact ⟨_, exec_shl x y s, (writeV_writeV_frame s VF x _ _).1⟩
  | ldI nnn => exact ⟨_, exec_ldI nnn s, fun y _ => s.readV_setI _ y⟩
  | rnd x kk => exact ⟨_, exec_rnd x kk s, (writeV_frame s x _).1⟩
  | addI x => exact ⟨_, exec_addI x s, fun y _ => s.readV_setI _ y⟩

/-- The old value of register `z` has no influence on an instruction's result from `s`: it is overwritten or carried
through. -/
def Unread (z : RegIdx) (i : Instr) (s t : State) (b : Byte) : Prop :=
  (z ∈ writesV i → exec i (s.writeV z b) = .next t) ∧ (z ∉ writesV i → exec i (s.writeV z b) = .next (t.writeV z b))

section
variable {z : RegIdx} {i : Instr} {s t : State} {b : Byte}

/-- An instruction that writes no register carries `z` through. -/
theorem unread_of_noWrite (hw : writesV i = []) (h : exec i (s.writeV z b) = .next (t.writeV z b)) : Unread z i s t b :=
  ⟨fun hz => absurd (hw ▸ hz) List.not_mem_nil, fun _ => h⟩

/-- An instruction that writes one register, with a byte that does not depend on `z`. -/
theorem unread_of_oneWrite {x : RegIdx} {f : State → Byte} (hw : writesV i = [x])
    (hex : ∀ s, exec i s = .next (s.writeV x (f s))) (hf : f (s.writeV z b) = f s) :
    Unread z i s (s.writeV x (f s)) b := by
  rw [Unread, hex, hf, hw, List.mem_singleton]
  constructor
  · rintro rfl
    rw [State.writeV_writeV_same]
  · intro hz
    rw [State.writeV_comm s b (f s) hz]

/-- An instruction that writes two registers, with bytes that do not depend on `z`. -/
theorem unread_of_twoWrites {x y : RegIdx} {f g : State → Byte} (hw : writesV i = [x, y])
    (hex : ∀ s, exec i s = .next ((s.writeV x (f s)).writeV y (g s))) (hf : f (s.writeV z b) = f s)
    (hg : g (s.writeV z b) = g s) : Unread z i s ((s.writeV x (f s)).writeV y (g s)) b := by
  rw [Unread, hex, hf, hg, hw, List.mem_cons, List.mem_singleton]
  by_cases hx : z = x
  · subst hx
    rw [State.writeV_writeV_same]
    exact ⟨fun _ => rfl, fun hz => absurd (.inl rfl) hz⟩
  · rw [State.writeV_comm s b (f s) hx]
    constructor
    · intro hz
      obtain rfl := hz.resolve_left hx
      rw [State.writeV_writeV_same]
    · intro hz
      rw [State.writeV_comm _ b (g s) (fun hy => hz (.inr hy))]

end

/-- Settles O37: by how many registers the instruction writes, with bytes read from the registers of its row. -/
theorem unreadRegistersDoNotMatter : Obligations.UnreadRegistersDoNotMatter := by
  intro i s t z b hz h
  have other {x : RegIdx} (hx : x ∈ readsV i) : (s.writeV z b).readV x = s.readV x :=
    State.readV_writeV_other s b (fun e => hz (e ▸ hx))
  cases i with
  | ret => cases h; exact unread_of_noWrite rfl rfl
  | jp nnn => cases h; exact unread_of_noWrite rfl rfl
  | call nnn => cases h; exact unread_of_noWrite rfl rfl
  | seByte x kk =>
    rw [exec_seByte] at h
    cases h
    exact unread_of_noWrite rfl (by rw [exec_seByte, other List.mem_cons_self]; rfl)
  | sneByte x kk =>
    rw [exec_sneByte] at h
    cases h
    exact unread_of_noWrite rfl (by rw [exec_sneByte, other List.mem_cons_self]; rfl)
  | ldByte x kk => cases h; exact unread_of_oneWrite rfl (exec_ldByte x kk) rfl
  | addByte x kk =>
    cases h
    exact unread_of_oneWrite rfl (exec_addByte x kk) (by rw [other List.mem_cons_self])
  | ldReg x y => cases h; exact unread_of_oneWrite rfl (exec_ldReg x y) (other List.mem_cons_self)
  | andReg x y =>
    have hx := other (x := x) (by simp [readsV])
    have hy := other (x := y) (by simp [readsV])
    cases h
    exact unread_of_oneWrite rfl (exec_andReg x y) (by rw [hx, hy])
  | xorReg x y =>
    have hx := other (x := x) (by simp [readsV])
    have hy := other (x := y) (by simp [readsV])
    cases h
    exact unread_of_oneWrite rfl (exec_xorReg x y) (by rw [hx, hy])
  | addReg x y =>
    have hx := other (x := x) (by simp [readsV])
    have hy := other (x := y) (by simp [readsV])
    cases h
    exact unread_of_twoWrites rfl (exec_addReg x y) (by rw [hx, hy]) (by rw [hx, hy])
  | shl x y =>
    have hx := other (x := x) (by simp [readsV])
    cases h
    refine unread_of_twoWrites rfl (exec_shl x y) (by rw [hx]) ?_
    rw [hx, State.readV_writeV _ VF, State.readV_writeV s VF, hx]
  | ldI nnn => cases h; exact unread_of_noWrite rfl rfl
  | rnd x kk => cases h; exact unread_of_oneWrite rfl (exec_rnd x kk) rfl
  | addI x => cases h; exact unread_of_noWrite rfl (by rw [exec_addI, other List.mem_cons_self]; rfl)

/-- An instruction's rule does not depend on the pending operations, nor, but for RND, on the random input (10_state.md
R36, R41). -/
theorem exec_withHost {i : Instr} {s t : State} {r : Byte} (ops : List BoundaryOp)
    (hr : (∀ x kk, i ≠ .rnd x kk) ∨ s.rnd = r) (h : exec i s = .next t) :
    exec i ((s.withPending ops).latchRnd r) = .next ((t.withPending ops).latchRnd r) := by
  cases i with
  | seByte x kk => rw [exec_seByte] at h ⊢; cases h; rfl
  | sneByte x kk => rw [exec_sneByte] at h ⊢; cases h; rfl
  | rnd x kk =>
    obtain hi | rfl := hr
    · exact absurd rfl (hi x kk)
    · cases h; rfl
  | _ => cases h; rfl

/-- Settles O38: instruction by instruction but for RND, the rule does not read the latch. -/
theorem onlyRndReadsRandomInput : Obligations.OnlyRndReadsRandomInput := by
  intro i s t r hi h
  obtain ⟨-, -, -, hpending⟩ := exec_fault_host h
  have same : t.withPending s.pending = t := hpending ▸ rfl
  have moved := exec_withHost (r := r) s.pending (.inl hi) h
  rw [same] at moved
  exact moved

end Sys2Proof.Machine
end

section
/-! PROOFS. The stack, `SP` and `PC` (10_state.md R26 to R31): what an instruction leaves in them, what a step can do to the
stack and `SP`, and runs of EXEC and ADVANCE pairs (70_reset_and_hazards.md R270). -/

namespace Sys2Proof.Machine

/-- The value an instruction leaves in `SP` (10_state.md R30). -/
def spAfter (i : Instr) (s : State) : BitVec Config.SPW :=
  match i with
  | .call _ => s.sp + 1
  | .ret => s.sp - 1
  | .jp _ | .seByte _ _ | .sneByte _ _ | .ldByte _ _ | .addByte _ _ | .ldReg _ _ | .andReg _ _ | .xorReg _ _
  | .addReg _ _ | .shl _ _ | .ldI _ | .rnd _ _ | .addI _ => s.sp

/-- The stack an instruction leaves (10_state.md R29). -/
def stackAfter (i : Instr) (s : State) : Vector Word 16 :=
  match i with
  | .call _ => (s.writeSlot (slotIndex (s.sp + 1)) s.pc).stack
  | .ret | .jp _ | .seByte _ _ | .sneByte _ _ | .ldByte _ _ | .addByte _ _ | .ldReg _ _ | .andReg _ _ | .xorReg _ _
  | .addReg _ _ | .shl _ _ | .ldI _ | .rnd _ _ | .addI _ => s.stack

/-- Every instruction completes, with these values in `PC`, `SP` and the stack. -/
theorem exec_control (i : Instr) (s : State) :
    ∃ t, exec i s = .next t ∧ t.pc = pcAfter i s ∧ t.sp = spAfter i s ∧ t.stack = stackAfter i s := by
  cases i with
  | seByte x kk => exact ⟨_, exec_seByte x kk s, rfl, rfl, rfl⟩
  | sneByte x kk => exact ⟨_, exec_sneByte x kk s, rfl, rfl, rfl⟩
  | _ => exact ⟨_, rfl, rfl, rfl, rfl⟩

/-- The three values depend on the block's state alone. -/
theorem controlAfter_withHost (i : Instr) (s : State) (ops : List BoundaryOp) (r : Byte) :
    pcAfter i ((s.withPending ops).latchRnd r) = pcAfter i s ∧ spAfter i ((s.withPending ops).latchRnd r) = spAfter i s ∧
      stackAfter i ((s.withPending ops).latchRnd r) = stackAfter i s := by
  cases i <;> exact ⟨rfl, rfl, rfl⟩

/-- The instruction that can change a slot. -/
theorem call_of_stackAfter_ne {i : Instr} {s : State} (h : stackAfter i s ≠ s.stack) : ∃ nnn, i = .call nnn := by
  cases i with
  | call nnn => exact ⟨nnn, rfl⟩
  | _ => exact absurd rfl h

/-- The instructions that can change `SP`. -/
theorem call_or_ret_of_spAfter_ne {i : Instr} {s : State} (h : spAfter i s ≠ s.sp) :
    (∃ nnn, i = .call nnn) ∨ i = .ret := by
  cases i with
  | call nnn => exact .inl ⟨nnn, rfl⟩
  | ret => exact .inr rfl
  | _ => exact absurd rfl h

/-- What a step does to the stack and `SP`: it keeps both, it runs an instruction, or it is RESET. -/
theorem step_stack_cases {s t : State} (h : step s = .next t) :
    (t.stack = s.stack ∧ t.sp = s.sp) ∨
    (∃ w r rest i, s.pending = .exec w r :: rest ∧ decode w = some i ∧ t.stack = stackAfter i s ∧ t.sp = spAfter i s) ∨
    ((∃ rest, s.pending = .reset :: rest) ∧ t.sp = 0) := by
  obtain ⟨-, rfl⟩ | ⟨w, r, rest, hp, hx⟩ | ⟨x, b, rest, -, rfl⟩ | ⟨rest, -, rfl⟩ | ⟨rest, hp, rfl⟩ := step_cases h
  · exact .inl ⟨rfl, rfl⟩
  · obtain ⟨-, ho⟩ | ⟨-, -, ho⟩ | ⟨i, -, hw, ho⟩ := execOp_cases hx
    · cases ho
      exact .inl ⟨rfl, rfl⟩
    · cases ho
      exact .inl ⟨rfl, rfl⟩
    · obtain ⟨u, hu, -, hsp, hstack⟩ := exec_control i ((s.withPending rest).latchRnd r)
      obtain ⟨-, hsp', hstack'⟩ := controlAfter_withHost i s rest r
      cases ho.trans hu
      exact .inr (.inl ⟨w, r, rest, i, hp, hw, hstack.trans hstack', hsp.trans hsp'⟩)
  · obtain ⟨hstack, hsp, -, -⟩ := writeVOp_keeps x b (s.withPending rest)
    exact .inl ⟨hstack, hsp⟩
  · obtain ⟨hstack, hsp, -, -⟩ := advanceOp_keeps (s.withPending rest)
    exact .inl ⟨hstack, hsp⟩
  · exact .inr (.inr ⟨⟨rest, hp⟩, rfl⟩)

/-- What is read of a slot depends on the stack alone. -/
theorem readSlot_congr {s t : State} (h : t.stack = s.stack) (j : SlotIdx) : t.readSlot j = s.readSlot j := by
  rw [State.readSlot, h, State.readSlot]

/-- Settles O39: a step that is not RESET changes a slot only by an instruction, and that is CALL. -/
theorem stackChangedOnlyByCallOrReset : Obligations.StackChangedOnlyByCallOrReset := by
  intro s t h hne
  have changed : t.stack ≠ s.stack := fun e => hne (readSlot_congr e)
  obtain ⟨hstack, -⟩ | ⟨w, r, rest, i, hp, hw, hstack, -⟩ | ⟨hreset, -⟩ := step_stack_cases h
  · exact absurd hstack changed
  · obtain ⟨nnn, rfl⟩ := call_of_stackAfter_ne (hstack ▸ changed)
    exact .inl ⟨w, r, rest, nnn, hp, hw⟩
  · exact .inr hreset

/-- Settles O40: a step that is not RESET changes `SP` only by an instruction, and that is CALL or RET. -/
theorem spChangedOnlyByCallRetReset : Obligations.SpChangedOnlyByCallRetReset := by
  intro s t h changed
  obtain ⟨-, hsp⟩ | ⟨w, r, rest, i, hp, hw, -, hsp⟩ | ⟨hreset, hsp⟩ := step_stack_cases h
  · exact absurd hsp changed
  · obtain ⟨nnn, rfl⟩ | rfl := call_or_ret_of_spAfter_ne (hsp ▸ changed)
    · exact .inl ⟨w, r, rest, nnn, hp, hw, hsp ▸ sp_add_one_toNat s.sp⟩
    · have raised : s.sp = t.sp + 1 := hsp ▸ (BitVec.sub_add_cancel s.sp 1).symm
      exact .inr (.inl ⟨w, r, rest, hp, hw, raised ▸ sp_add_one_toNat t.sp⟩)
  · exact .inr (.inr ⟨hreset, hsp ▸ BitVec.toNat_zero⟩)

/-- An EXEC of a supported word and its ADVANCE: two steps without a fault, and what they leave in `PC`, `SP` and the
stack. -/
theorem exec_advance_control {s : State} {w : Word} {r : Byte} {rest : List BoundaryOp} {i : Instr}
    (hp : s.pending = .exec w r :: .advance :: rest) (hf : s.fault = false) (hw : decode w = some i) :
    ∃ t, StepsWithoutFault 2 s t ∧ t.fault = false ∧ t.pending = rest ∧ t.pc = pcAfter i s + 2 ∧ t.sp = spAfter i s ∧
      t.stack = stackAfter i s := by
  obtain ⟨u, hu, hpc, hsp, hstack⟩ := exec_control i ((s.withPending (.advance :: rest)).latchRnd r)
  obtain ⟨hpc', hsp', hstack'⟩ := controlAfter_withHost i s (.advance :: rest) r
  obtain ⟨hfault, -, -, -⟩ := exec_fault_host hu
  exact ⟨_, exec_advance hp hf hw hu, hfault.trans hf, rfl, congrArg (· + 2) (hpc.trans hpc'), hsp.trans hsp',
    hstack.trans hstack'⟩

theorem add_two_add_two_toNat (a : Word) : (a + 2 + 2).toNat = (a.toNat + 4) % 2 ^ 16 := by
  rw [pc_add_two_toNat, pc_add_two_toNat]; omega

/-- The ADVANCE after an instruction leads to the address of the table (70_reset_and_hazards.md R270). -/
theorem pcAfter_add_two_toNat (i : Instr) (s : State) : (pcAfter i s + 2).toNat = nextWordAddress i s := by
  cases i with
  | ret => exact pc_add_two_toNat _
  | jp nnn => exact (congrArg BitVec.toNat (BitVec.sub_add_cancel (zextAddr nnn) 2)).trans (zextAddr_toNat nnn)
  | call nnn =>
    have := nnn.isLt
    refine (pc_add_two_toNat _).trans ((congrArg (fun n => (n + 2) % 2 ^ 16) (zextAddr_toNat nnn)).trans ?_)
    exact Nat.mod_eq_of_lt (by omega)
  | seByte x kk =>
    by_cases h : s.readV x = kk
    · simp only [pcAfter, nextWordAddress, if_pos h, add_two_add_two_toNat]
    · simp only [pcAfter, nextWordAddress, if_neg h, pc_add_two_toNat]
  | sneByte x kk =>
    by_cases h : s.readV x = kk
    · simp only [pcAfter, nextWordAddress, ne_eq, ite_not, if_pos h, pc_add_two_toNat]
    · simp only [pcAfter, nextWordAddress, ne_eq, ite_not, if_neg h, add_two_add_two_toNat]
  | _ => exact pc_add_two_toNat s.pc

/-- Settles O41: the pair leaves `pcAfter` advanced by 2, which is the table's address. -/
theorem nextWordAddressAsTabled : Obligations.NextWordAddressAsTabled := by
  intro s w r rest i hp hf hw
  obtain ⟨t, hrun, -, hpending, hpc, -, -⟩ := exec_advance_control hp hf hw
  exact ⟨t, hrun, hpc ▸ pcAfter_add_two_toNat i s, hpending⟩

end Sys2Proof.Machine
end

section
/-! PROOFS. Nested calls (40_control_flow.md R113, 10_state.md R31): the depth of live calls is the distance of `SP` from
its base, so that fewer than 16 further calls leave the base's slot alone and the sixteenth writes it again. -/

namespace Sys2Proof.Machine

theorem depthAfter_call {limit d d' : Nat} {nnn : Addr} (h : depthAfter limit d (.call nnn) = some d') :
    d < limit ∧ d' = d + 1 := by
  rw [depthAfter] at h
  split at h
  · exact ⟨‹_›, (Option.some.inj h).symm⟩
  · cases h

theorem depthAfter_ret {limit d d' : Nat} (h : depthAfter limit d .ret = some d') : d = d' + 1 := by
  rw [depthAfter] at h
  split at h
  · cases h
  · have := Option.some.inj h
    omega

/-- `SP` is `d` live calls above `base`. -/
def AtDepth (base : BitVec Config.SPW) (d : Nat) (s : State) : Prop := s.sp = base + BitVec.ofNat _ d

theorem add_ofNat_succ (base : BitVec Config.SPW) (d : Nat) :
    base + BitVec.ofNat _ (d + 1) = base + BitVec.ofNat _ d + 1 := by
  rw [BitVec.ofNat_add, BitVec.add_assoc]
  rfl

/-- One instruction moves `SP` with the depth. -/
theorem spAfter_of_depthAfter {base : BitVec Config.SPW} {limit d d' : Nat} {i : Instr} {s : State}
    (hs : AtDepth base d s) (h : depthAfter limit d i = some d') : spAfter i s = base + BitVec.ofNat _ d' := by
  cases i with
  | call nnn =>
    obtain ⟨-, rfl⟩ := depthAfter_call h
    exact (congrArg (· + 1) hs).trans (add_ofNat_succ base d).symm
  | ret =>
    obtain rfl := depthAfter_ret h
    exact (congrArg (· - 1) (hs.trans (add_ofNat_succ base d'))).trans (BitVec.add_sub_cancel _ 1)
  | _ => cases h; exact hs

/-- The slots of two depths less than 16 apart are different (10_state.md R29). -/
theorem slotIndex_add_ofNat_ne (base : BitVec Config.SPW) {d : Nat} (h0 : 0 < d) (h16 : d < 16) :
    slotIndex (base + BitVec.ofNat _ d) ≠ slotIndex base := by
  intro h
  have hn := congrArg BitVec.toNat h
  rw [slotIndex_add, slotIndex_ofNat, BitVec.toNat_add, BitVec.toNat_ofNat] at hn
  have := (slotIndex base).isLt
  omega

/-- One instruction that keeps the depth below 16 keeps the slot of the base. -/
theorem stackAfter_keeps_base {base : BitVec Config.SPW} {limit d d' : Nat} {i : Instr} {s : State}
    (hlimit : limit < 16) (hs : AtDepth base d s) (h : depthAfter limit d i = some d') :
    (stackAfter i s)[(slotIndex base).toNat] = s.readSlot (slotIndex base) := by
  cases i with
  | call nnn =>
    obtain ⟨hd, -⟩ := depthAfter_call h
    have other : slotIndex (s.sp + 1) ≠ slotIndex base := by
      rw [hs, ← add_ofNat_succ]
      exact slotIndex_add_ofNat_ne base (Nat.succ_pos d) (by omega)
    exact (s.readSlot_writeSlot _ _ s.pc).trans (if_neg other)
  | _ => rfl

/-- After a CALL the slot of the raised `SP` holds the call's own address (40_control_flow.md R110). -/
theorem readSlot_of_stackAfter_call {s t : State} {nnn : Addr} (h : t.stack = stackAfter (.call nnn) s) :
    t.readSlot (slotIndex (s.sp + 1)) = s.pc :=
  (congrArg (·[(slotIndex (s.sp + 1)).toNat]) h).trans (s.readSlot_writeSlot_same _ _)

theorem callDepth_cons {limit d d' : Nat} {p : Word × Byte} {ps : List (Word × Byte)}
    (h : callDepth limit d (p :: ps) = some d') :
    ∃ i e, decode p.1 = some i ∧ depthAfter limit d i = some e ∧ callDepth limit e ps = some d' := by
  obtain ⟨e, he, hps⟩ := Option.bind_eq_some_iff.mp h
  obtain ⟨i, hi, hie⟩ := Option.bind_eq_some_iff.mp he
  exact ⟨i, e, hi, hie, hps⟩

/-- A sequence of pairs with a depth runs without a fault and moves `SP` to that depth. If fewer than 16 further calls
are ever live, the slot of the base keeps its address. -/
theorem run_pairs_of_callDepth {base : BitVec Config.SPW} {limit : Nat} {rest : List BoundaryOp} :
    ∀ {words : List (Word × Byte)} {d d' : Nat} {s : State}, s.fault = false →
      s.pending = execAdvancePairs words ++ rest → AtDepth base d s → callDepth limit d words = some d' →
      ∃ t, StepsWithoutFault (2 * words.length) s t ∧ t.fault = false ∧ t.pending = rest ∧ AtDepth base d' t ∧
        (limit < 16 → t.readSlot (slotIndex base) = s.readSlot (slotIndex base))
  | [], d, d', s, hf, hp, hs, hd => by
    cases hd
    exact ⟨s, .refl hf, hf, hp, hs, fun _ => rfl⟩
  | p :: ps, d, d', s, hf, hp, hs, hd => by
    obtain ⟨i, e, hi, he, hps⟩ := callDepth_cons hd
    obtain ⟨u, hsu, hfu, hpu, -, hspu, hstack⟩ := exec_advance_control hp hf hi
    obtain ⟨t, hut, hft, hpt, hspt, hslot⟩ := run_pairs_of_callDepth hfu hpu (hspu.trans (spAfter_of_depthAfter hs he)) hps
    refine ⟨t, ?run, hft, hpt, hspt, fun hlimit => (hslot hlimit).trans ?kept⟩
    case run => rw [List.length_cons, Nat.mul_succ, Nat.add_comm]; exact hsu.trans hut
    case kept =>
      have kept := stackAfter_keeps_base hlimit hs he
      rw [← hstack] at kept
      exact kept

/-- Settles O42: the CALL puts its address in the slot at depth 0 of the body, the body keeps it and comes back to depth
0, and the RET takes it. -/
theorem callResumesAfterBalancedBody : Obligations.CallResumesAfterBalancedBody := by
  intro s c e body rest nnn hf hp hc he hbody
  rw [execAdvancePairs, execAdvancePairs_append, List.cons_append, List.cons_append, List.append_assoc] at hp
  obtain ⟨u, hsu, hfu, hpu, -, hspu, hstacku⟩ := exec_advance_control hp hf hc
  obtain ⟨v, huv, hfv, hpv, hspv, hslot⟩ := run_pairs_of_callDepth (base := s.sp + 1) (d := 0) hfu hpu
    (hspu.trans (BitVec.add_zero _).symm) hbody
  obtain ⟨t, hvt, -, hpt, hpct, hspt, -⟩ := exec_advance_control hpv hfv he
  have top : v.sp = s.sp + 1 := hspv.trans (BitVec.add_zero _)
  have address : v.readSlot (slotIndex v.sp) = s.pc := by
    rw [top, hslot (by decide)]
    exact readSlot_of_stackAfter_call hstacku
  refine ⟨t, ?run, ?resumed, ?restored, hpt⟩
  case run => rw [show 2 * (body.length + 2) = 2 + (2 * body.length + 2) by omega]; exact hsu.trans (huv.trans hvt)
  case resumed => rw [hpct, pcAfter, address, pc_add_two_toNat]
  case restored => rw [hspt, spAfter, top, BitVec.add_sub_cancel]

/-- Calls alone: each is one deeper. -/
theorem callDepth_of_calls {limit : Nat} : ∀ {calls : List (Word × Byte)} {d : Nat},
    (∀ p ∈ calls, ∃ nnn, decode p.1 = some (.call nnn)) → d + calls.length ≤ limit →
    callDepth limit d calls = some (d + calls.length)
  | [], _, _, _ => rfl
  | p :: ps, d, hcalls, hlimit => by
    obtain ⟨nnn, hp⟩ := hcalls p List.mem_cons_self
    rw [List.length_cons] at hlimit
    have deeper : d < limit := by omega
    rw [callDepth, hp, Option.bind_some, depthAfter, if_pos deeper, Option.bind_some, List.length_cons,
      callDepth_of_calls (fun q hq => hcalls q (List.mem_cons_of_mem p hq)) (by omega), Nat.add_right_comm, Nat.add_assoc]

/-- The EXEC of a CALL puts its own address in the slot that the raised `SP` selects (40_control_flow.md R110). -/
theorem step_call {s : State} {w : Word} {r : Byte} {rest : List BoundaryOp} {nnn : Addr}
    (hp : s.pending = .exec w r :: rest) (hf : s.fault = false) (hw : decode w = some (.call nnn)) :
    ∃ t, step s = .next t ∧ t.sp = s.sp + 1 ∧ t.readSlot (slotIndex t.sp) = s.pc :=
  ⟨_, (step_exec_supported hp hf hw).trans (exec_call nnn _), rfl, State.readSlot_writeSlot_same _ _ _⟩

/-- The slot index comes back after sixteen calls (10_state.md R31). -/
theorem slotIndex_add_sixteen (p : BitVec Config.SPW) : slotIndex (p + BitVec.ofNat _ 16 + 1) = slotIndex (p + 1) := by
  simp

/-- Settles O43: sixteen calls move `SP` by 16, so the seventeenth selects the slot of the first. -/
theorem seventeenthCallOverwritesFirst : Obligations.SeventeenthCallOverwritesFirst := by
  intro s calls rest hf hp hlen hcalls
  obtain ⟨init, last, rfl⟩ := (List.eq_nil_or_concat' calls).resolve_left (by rintro rfl; cases hlen)
  have hinit : init.length = 16 := by simpa using hlen
  obtain ⟨first, mid, rfl⟩ := List.exists_cons_of_length_pos (l := init) (by omega)
  obtain ⟨n1, h1⟩ := hcalls first (by simp)
  obtain ⟨n17, h17⟩ := hcalls last (by simp)
  rw [execAdvancePairs_append, List.append_assoc] at hp
  obtain ⟨s1, hs1, hsp1, hslot1⟩ := step_call hp hf h1
  have depth := callDepth_of_calls (limit := 16) (d := 0) (fun p hm => hcalls p (List.mem_append_left _ hm)) (by omega)
  obtain ⟨s16, hs16, hf16, hp16, hsp16, -⟩ :=
    run_pairs_of_callDepth (base := s.sp) hf hp (BitVec.add_zero _).symm depth
  obtain ⟨t, ht, -, -, -, hspt, hstackt⟩ := exec_advance_control hp16 hf16 h17
  rw [Nat.zero_add, hinit] at hsp16
  rw [hinit] at hs16
  refine ⟨s1, s16, t, hs1, hslot1, hs16, ht, ?overwritten, ?raised⟩
  case overwritten =>
    rw [hsp1, ← slotIndex_add_sixteen s.sp, ← hsp16]
    exact readSlot_of_stackAfter_call hstackt
  case raised => exact hspt.trans ((congrArg (· + 1) hsp16).trans (add_ofNat_succ s.sp 16).symm)

end Sys2Proof.Machine
end

section
/-! PROOFS. The boot order (70_reset_and_hazards.md R265, R266): RESET, then register writes. -/

namespace Sys2Proof.Machine

/-- A run goes on from the state of its first step. -/
theorem core_run_succ {M : Host.Core} {s t : M.State} (k : Nat) (h : M.step s = .next t) : M.run (k + 1) s = M.run k t := by
  rw [Host.Core.run, h]

/-- Register writes with FAULT = 0 leave each register at the last value written to it and change nothing else. -/
theorem run_writes {rest : List BoundaryOp} : ∀ {writes : List (RegIdx × Byte)} {s : State}, s.fault = false →
    s.pending = writes.map (fun p => .writeV p.1 p.2) ++ rest →
    ∃ t, Host.Core.run Sys2Proof.core writes.length s = .next t ∧
      (∀ x, t.readV x = writes.foldl (fun b p => if p.1 = x then p.2 else b) (s.readV x)) ∧
      t = { s with v := t.v, pending := rest }
  | [], s, _, hp => ⟨s, rfl, fun _ => rfl, congrArg s.withPending hp⟩
  | p :: ps, s, hf, hp => by
    obtain ⟨t, ht, hv, hother⟩ := run_writes (writes := ps)
      (s := (s.withPending (ps.map (fun p => .writeV p.1 p.2) ++ rest)).writeV p.1 p.2) hf rfl
    refine ⟨t, (core_run_succ _ (step_writeV hp hf)).trans ht, fun x => ?_, hother⟩
    rw [hv, State.readV_writeV, State.readV_withPending, List.foldl_cons]

/-- Settles O44: RESET gives the reset values, FAULT = 0 among them, and the writes change registers alone. -/
theorem bootLeavesWrittenRegisters : Obligations.BootLeavesWrittenRegisters := by
  intro s writes words rest hp
  rw [bootOrder, List.cons_append, List.append_assoc] at hp
  obtain ⟨t, ht, hv, hother⟩ := run_writes (s := (s.withPending _).resetBlock) rfl rfl
  refine ⟨t, (core_run_succ _ (step_reset hp)).trans ht, fun x => ?register, ?others⟩
  case register => exact (hv x).trans (congrArg (List.foldl _ · writes) (State.reset_readV x))
  case others =>
    rw [hother]
    exact ⟨rfl, State.reset_readSlot, BitVec.toNat_zero, rfl, rfl, rfl⟩

end Sys2Proof.Machine
end

section
/-! PROOFS. The reference harness (20_memory.md R62 to R65): its step against the block's operations, what is fetched and
placed, and how a run ends. -/

namespace Sys2Proof.Machine

/-- The field `w[15:12]` is the first digit (30_encoding.md R71). -/
theorem firstDigit_digits (a b c d : BitVec 4) : (digits a b c d).extractLsb' 12 4 = a := by
  apply BitVec.eq_of_toNat_eq
  have := a.isLt; have := b.isLt; have := c.isLt; have := d.isLt
  simp only [BitVec.extractLsb'_toNat, digits_toNat, Nat.shiftRight_eq_div_pow]
  omega

/-- A jump to itself decodes to JP of its own address (20_memory.md R64). -/
theorem decode_of_isSelfJump {w pc : Word} (h : isSelfJump w pc = true) :
    decode w = some (.jp (fieldNNN w)) ∧ zextAddr (fieldNNN w) = pc := by
  obtain ⟨hop, htarget⟩ := of_decide_eq_true h
  refine ⟨?_, htarget⟩
  obtain ⟨a, b, c, d, rfl⟩ := exists_digits w
  obtain rfl : a = 1 := (firstDigit_digits a b c d).symm.trans hop
  rw [decode_digits_jp, fieldNNN_digits]

/-- The block's two steps on an EXEC and its ADVANCE, from what the instruction's rule gives. -/
theorem step_step_of_exec {s u : State} {w : Word} {r : Byte} {rest : List BoundaryOp} {i : Instr}
    (hf : s.fault = false) (hw : decode w = some i) (hu : exec i (s.latchRnd r) = .next u) :
    ∃ v, step (s.withPending (.exec w r :: .advance :: rest)) = .next v ∧
      step v = .next ((u.withPending rest).latchRnd r).pcPlusTwo := by
  have hv : exec i ((s.withPending (.advance :: rest)).latchRnd r) = .next ((u.withPending (.advance :: rest)).latchRnd r) :=
    exec_withHost (s := s.latchRnd r) (.advance :: rest) (.inr rfl) hu
  obtain ⟨hfu, -, -, -⟩ := exec_fault_host hu
  exact ⟨_, (step_exec_supported (s := s.withPending _) rfl hf hw).trans hv, step_advance rfl (hfu.trans hf)⟩

/-- EXEC and ADVANCE as the harness performs them on a supported word. -/
theorem execAdvance_of_exec {h : Harness} {u : State} {w : Word} {r : Byte} {i : Instr}
    (hf : h.core.fault = false) (hw : decode w = some i) (hu : exec i (h.core.latchRnd r) = .next u) :
    h.execAdvance w r = .next (.running ⟨u.pcPlusTwo, h.mem⟩) := by
  obtain ⟨hfu, -, -, -⟩ := exec_fault_host hu
  have hfu : u.fault = false := hfu.trans hf
  rw [Harness.execAdvance, execOp_supported hf hw, hu]
  simp only [hfu, advanceOp, Bool.false_eq_true, if_false]

/-- An unsupported word ends the run with the fault taken. -/
theorem execAdvance_of_unsupported {h : Harness} {w : Word} (r : Byte) (hf : h.core.fault = false) (hw : decode w = none) :
    h.execAdvance w r = .next (.ended .faulted ⟨h.core.raiseFault (.unsupportedWord w), h.mem⟩) := by
  rw [Harness.execAdvance, execOp_unsupported hf hw]
  rfl

/-- A harness step with FAULT = 0 on a fetched word (20_memory.md R64). -/
theorem harnessStep_of_fetch {h : Harness} {w : Word} (r : Byte) (hf : h.core.fault = false)
    (hw : h.mem.fetchWord h.core.pc = some w) :
    h.step r = if isSelfJump w h.core.pc then .next (.ended .halt h) else h.execAdvance w r := by
  rw [Harness.step, hf, hw]
  rfl

/-- Settles O45: both sides run the instruction's rule and add 2 to `PC`. -/
theorem harnessStepIsExecThenAdvance : Obligations.HarnessStepIsExecThenAdvance := by
  intro h w r rest hf hw hjump hd
  obtain ⟨i, hi⟩ := Option.ne_none_iff_exists'.mp hd
  obtain ⟨u, hu⟩ := exec_completes i (h.core.latchRnd r)
  obtain ⟨v, hv, ht⟩ := step_step_of_exec (rest := rest) hf hi hu
  refine ⟨⟨u.pcPlusTwo, h.mem⟩, v, _, ?harness, hv, ht, rfl, rfl⟩
  rw [harnessStep_of_fetch r hf hw, hjump]
  exact execAdvance_of_exec hf hi hu

/-- Settles O46: the jump to itself writes `PC - 2`, and the ADVANCE brings `PC` back. -/
theorem haltStateIsWhatTheJumpLeaves : Obligations.HaltStateIsWhatTheJumpLeaves := by
  intro h w r rest hf hw hjump
  obtain ⟨hi, htarget⟩ := decode_of_isSelfJump hjump
  refine ⟨?halt, _, exec_advance rfl hf hi (exec_jp _ _), ?same⟩
  case halt => rw [harnessStep_of_fetch r hf hw, hjump]; rfl
  case same =>
    have back : zextAddr (fieldNNN w) - 2 + 2 = h.core.pc := (BitVec.sub_add_cancel _ 2).trans htarget
    exact congrArg (fun pc => { h.core.accessors with pc }) back

/-- Settles O47: the two bytes appended, the first above the second. -/
theorem fetchIsBigEndianInRange : Obligations.FetchIsBigEndianInRange := by
  intro m pc
  refine ⟨fun above => if_pos above, fun inRange => ⟨_, if_neg (Nat.not_lt.mpr inRange), ?_⟩⟩
  have := (m.read (pc.toNat + 1)).isLt
  rw [BitVec.toNat_append, ← Nat.shiftLeft_add_eq_or_of_lt this, Nat.shiftLeft_eq, Nat.mul_comm]

/-- A byte inside M can be written. -/
theorem Memory.write_inside (m : Memory) {a : Nat} (b : Byte) (h : a < Memory.size) : ∃ m', Memory.write m a b = some m' :=
  ⟨_, if_pos h⟩

theorem Memory.place_cons {m m' : Memory} {a : Nat} {b : Byte} (bs : List Byte) (h : Memory.write m a b = some m') :
    Memory.place m a (b :: bs) = Memory.place m' (a + 1) bs := by
  rw [Memory.place, h]

/-- A program that fits is placed byte by byte, in a memory in canonical form, and changes no other byte. -/
theorem Memory.place_fits : ∀ {program : List Byte} {m : Memory} {base : Nat}, Memory.wf m = true →
    base + program.length ≤ Memory.size → ∃ m', Memory.place m base program = some m' ∧ Memory.wf m' = true ∧
      (∀ k (hk : k < program.length), Memory.read m' (base + k) = program[k]) ∧
      ∀ a, (∀ k, k < program.length → a ≠ base + k) → Memory.read m' a = Memory.read m a
  | [], m, base, hm, _ => ⟨m, rfl, hm, fun _ hk => absurd hk (Nat.not_lt_zero _), fun _ _ => rfl⟩
  | b :: bs, m, base, hm, hfit => by
    rw [List.length_cons] at hfit
    obtain ⟨m1, h1⟩ := Memory.write_inside m (a := base) b (by omega)
    obtain ⟨m2, h2, hwf, hplaced, hother⟩ := place_fits (program := bs) (base := base + 1) (Memory.wf_write hm h1) (by omega)
    refine ⟨m2, (Memory.place_cons bs h1).trans h2, hwf, fun k hk => ?placed, fun a ha => ?other⟩
    case placed =>
      cases k with
      | zero =>
        rw [hother (base + 0) (fun k _ => by omega), Memory.read_write hm h1, if_pos (Nat.add_zero base).symm]
        rfl
      | succ k =>
        rw [show base + (k + 1) = base + 1 + k by omega, hplaced k (Nat.lt_of_succ_lt_succ hk)]
        rfl
    case other =>
      have first : base ≠ a := fun e => ha 0 (Nat.succ_pos _) e.symm
      have later (k : Nat) (hk : k < bs.length) : a ≠ base + 1 + k := by
        have := ha (k + 1) (Nat.succ_lt_succ hk)
        omega
      rw [hother a later, Memory.read_write hm h1, if_neg first]

/-- A program with a byte outside M is not placed. -/
theorem Memory.place_outside : ∀ {program : List Byte} {m : Memory} {base : Nat}, program ≠ [] →
    Memory.size < base + program.length → Memory.place m base program = none
  | [], _, _, hne, _ => absurd rfl hne
  | b :: bs, m, base, _, hout => by
    by_cases hbase : base < Memory.size
    · obtain ⟨m1, h1⟩ := Memory.write_inside m b hbase
      rw [List.length_cons] at hout
      have rest : bs ≠ [] := by rintro rfl; exact absurd hout (by simp; omega)
      rw [Memory.place_cons bs h1, place_outside rest (by omega)]
    · rw [Memory.place, Memory.write_outside m b (Nat.not_lt.mp hbase)]

/-- Settles O48: the empty memory is in canonical form and reads 0x00 everywhere. -/
theorem loadPlacesProgram : Obligations.LoadPlacesProgram :=
  ⟨fun _ _ hfit => Memory.place_fits rfl hfit, fun _ _ hne hout => Memory.place_outside hne hout,
    fun _ _ h => congrArg (Option.map _) h⟩

/-- How a harness step ends or goes on, from FAULT = 0: the memory is as it was, a run that goes on has FAULT = 0, and
the end is FAULTED exactly when FAULT is 1. -/
theorem harnessStep_cases {h : Harness} (r : Byte) (hf : h.core.fault = false) :
    (∃ h', h.step r = .next (.running h') ∧ h'.core.fault = false ∧ h'.mem = h.mem) ∨
    ∃ e h', h.step r = .next (.ended e h') ∧ h'.mem = h.mem ∧ (e = .faulted ↔ h'.core.fault = true) := by
  have unfaulted {e : RunEnd} (he : e ≠ .faulted) : e = .faulted ↔ h.core.fault = true := by simp [he, hf]
  cases hw : h.mem.fetchWord h.core.pc with
  | none => exact .inr ⟨.fetchRange, h, by rw [Harness.step, hf, hw]; rfl, rfl, unfaulted nofun⟩
  | some w =>
    rw [harnessStep_of_fetch r hf hw]
    cases hjump : isSelfJump w h.core.pc with
    | true => exact .inr ⟨.halt, h, rfl, rfl, unfaulted nofun⟩
    | false =>
      cases hd : decode w with
      | none => exact .inr ⟨.faulted, _, execAdvance_of_unsupported r hf hd, rfl, iff_of_true rfl rfl⟩
      | some i =>
        obtain ⟨u, hu⟩ := exec_completes i (h.core.latchRnd r)
        obtain ⟨hfu, -, -, -⟩ := exec_fault_host hu
        exact .inl ⟨_, execAdvance_of_exec hf hd hu, hfu.trans hf, rfl⟩

/-- Settles O49: induction on the random bytes, one harness step each. -/
theorem harnessRunEnds : Obligations.HarnessRunEnds := by
  intro h rnds hf
  induction rnds generalizing h with
  | nil => exact ⟨.budget, h, rfl, rfl, by simp [hf]⟩
  | cons r rs ih =>
    obtain ⟨h', hstep, hf', hmem⟩ | ⟨e, h', hstep, hmem, hend⟩ := harnessStep_cases r hf
    · obtain ⟨e, h'', hrun, hmem', hend⟩ := ih h' hf'
      exact ⟨e, h'', by rw [Harness.run, hstep]; exact hrun, hmem'.trans hmem, hend⟩
    · exact ⟨e, h', by rw [Harness.run, hstep], hmem, hend⟩

end Sys2Proof.Machine
end
